-- ==== Sys2Proof/Word.lean ====
section
/-! DEFINITION. The widths of the engine's values (00_scope.md R6, R8). -/

namespace Sys2Proof

/-- An unsigned 32-bit value; `+` on it is addition modulo 2^32 (R8). -/
abbrev Word := BitVec 32

/-- One byte of the message buffer or of the digest (R7). -/
abbrev Byte := BitVec 8

end Sys2Proof
end

