-- ==== Sys2Proof/Config.lean ====
section
/-! DEFINITION. What is fixed for one instance of the engine: the open window base (20_memory.md R82)
and the size and unlisted contents of the message buffer (10_state.md R30, 70_reset_and_hazards.md R340). -/

namespace Sys2Proof.Config

/-- The platform's choice of the window base, as a number of 64-byte units (R82, U11: a parameter).
It has no body, so no proof can see its value (log 3). -/
opaque md5BaseBlock : Nat

/-- `MD5_BASE`: a byte address, a multiple of 64 (R82). -/
def md5Base : Nat := 64 * md5BaseBlock

/-- The number of bytes of MBUF (R36, R70). -/
abbrev mbufSize : Nat := 64

/-- What an MBUF byte that memory does not list reads as: the reset contents (R340). -/
abbrev mbufUnlisted : Byte := 0x00#8

end Sys2Proof.Config
end

