-- ==== Sys2Proof/Syntax.lean ====
section
/-! DEFINITION. The operations of the engine: one constructor per row of spec/opcode_table.json
(30_encoding.md R100 to R106), and the three formats they are encoded in. -/

namespace Sys2Proof

/-- Every row of the opcode table. `k` is a row's field IDX[1:0], `v` the WDATA of a write (R101),
`t` the TAIL of FINAL (R105), `n` and `j` the fields NEXT and RND[3:0] of a round's selector (R106). -/
inductive Instr where
  -- format BUS, reads
  | rdId                                     -- 0_0000
  | rdCtrl                                   -- 0_0001
  | rdStatus                                 -- 0_0010
  | rdCmd                                    -- 0_0011
  | rdData                                   -- 0_0100
  | rdLenLo                                  -- 0_0101
  | rdLenHi                                  -- 0_0110
  | rdRsv7                                   -- 0_0111, RD_RSV, first pattern
  | rdDigest (k : BitVec 2)                  -- 0_10kk
  | rdRsvHigh (k : BitVec 2)                 -- 0_11kk, RD_RSV, second pattern
  -- format BUS, writes
  | wrRoId (v : Word)                        -- 1_0000, WR_RO, first pattern
  | wrCtrl (v : Word)                        -- 1_0001
  | wrRoStatus (v : Word)                    -- 1_0010, WR_RO, second pattern
  | wrCmd (v : Word)                         -- 1_0011
  | wrData (v : Word)                        -- 1_0100
  | wrRoLenLo (v : Word)                     -- 1_0101, WR_RO, third pattern
  | wrRoLenHi (v : Word)                     -- 1_0110, WR_RO, fourth pattern
  | wrRsv7 (v : Word)                        -- 1_0111, WR_RSV, first pattern
  | wrRoDigest (k : BitVec 2) (v : Word)     -- 1_10kk, WR_RO, fifth pattern
  | wrRsvHigh (k : BitVec 2) (v : Word)      -- 1_11kk, WR_RSV, second pattern
  -- format CMD
  | nop
  | init
  | push
  | final (t : BitVec 2)
  -- format SEL
  | roundF (n : BitVec 2) (j : BitVec 4)     -- nn 000 jjjj
  | roundG (n : BitVec 2) (j : BitVec 4)     -- nn 001 jjjj
  | roundH (n : BitVec 2) (j : BitVec 4)     -- nn 010 jjjj
  | roundI (n : BitVec 2) (j : BitVec 4)     -- nn 011 jjjj
  | accumCont                                -- 00 1000000
  | accumPad2                                -- 01 1000000
  | accumLast                                -- 10 1000000
  deriving DecidableEq, Repr

/-- What a legal CMD word starts (R103), with FINAL's TAIL (R105). -/
inductive Command where
  | nop
  | init
  | push
  | final (t : BitVec 2)
  deriving DecidableEq, Repr

/-- A command as a row of the opcode table. -/
def Command.instr : Command → Instr
  | .nop => .nop
  | .init => .init
  | .push => .push
  | .final t => .final t

/-- An encoded operation. Its kind is where it comes from, never its bits (R100, R110): a bus request
with its write value (R101), a word written to CMD (R102), or the engine's selector (R106). -/
inductive Encoded where
  | bus (req : BitVec 5) (wdata : Word)
  | cmd (w : Word)
  | sel (v : BitVec 9)
  deriving DecidableEq, Repr

end Sys2Proof
end

