-- ==== Sys2Proof/Machine/State.lean ====
section
/-! DEFINITION. The engine's architectural state (10_state.md R30 to R51), the model's own record of
the host's side (logs 1 and 2), the reasons a step can stop, and the state after reset (R340). -/

namespace Sys2Proof.Machine

/-- PHASE (R33). -/
inductive Phase where
  | idle | absorb | run | done
  deriving DecidableEq, Repr

/-- What may be written to NEXT (R35). -/
inductive BlockNext where
  | cont | pad2 | last
  deriving DecidableEq, Repr

/-- The error causes a command raises (60_exceptions.md R301). -/
inductive CmdError where
  | illegalCmd | busy | sequence
  deriving DecidableEq, Repr

/-- One turn of the interleaving (R11, R85) and of the host's environment (R341). -/
inductive Turn where
  /-- A bus operation at the engine's port: request word and write value (R76, R101). -/
  | bus (req : BitVec 5) (wdata : Word)
  /-- An access of `size` bytes at byte address `addr` on the platform's bus; `write` is the value
  of a write, none for a read (R76, R77, R82). -/
  | access (size addr : Nat) (write : Option Word)
  /-- The engine may take one step (R217). -/
  | engine
  /-- The reset input `rst` (R340, R341). -/
  | reset
  deriving DecidableEq, Repr

/-- MBUF's contents in canonical form: addresses strictly rising and below 64, no entry equal to what
an unlisted address reads as (`Memory.wf`). -/
abbrev Memory := List Host.Cell

/-- The state of R30, with the two fields of the model's own at the end. -/
structure State where
  h0 : Word
  h1 : Word
  h2 : Word
  h3 : Word
  a : Word
  b : Word
  c : Word
  d : Word
  phase : Phase
  rnd : BitVec 7
  /-- NEXT (R35). -/
  nxt : BitVec 2
  mbuf : Memory
  bcnt : BitVec 7
  len : BitVec 64
  data : Word
  /-- CTRL[0] (R40). -/
  ie : Bool
  err : Bool
  errcode : BitVec 4
  /-- The model's own: the turns to come, oldest first (log 1). -/
  turns : List Turn
  /-- The model's own: RDATA of the latest host operation, none when it returned nothing (log 2). -/
  rdata : Option Word
  deriving DecidableEq, Repr

/-- Why the machine stops. -/
inductive Fault where
  /-- RND 65 to 127 or NEXT = 3 while PHASE = RUN (R35, R109, U7: a model must fault). Raised by the
  fetch of an engine step and by the four rounds at NEXT = 3. Safe: no run from reset meets it. -/
  | unreachableSelector
  /-- A store to an MBUF address above 63, which does not exist (R36, R70). Raised by PUSH and FINAL
  when BCNT exceeds its ABSORB range (R37). Safe: no run from reset meets it. -/
  | mbufOutOfRange
  deriving DecidableEq, Repr

/-- Why the machine has no meaning for a turn. -/
inductive Refusal where
  /-- An instruction with no meaning yet, by its mnemonic. Safe. -/
  | notModelled (mnemonic : String)
  /-- A narrow or misaligned platform access that touches the window (R77, U9: a model must refuse it).
  Raised by the fetch of an access turn. Safe. -/
  | narrowOrMisaligned
  /-- A platform access that does not touch the window: it does not reach the engine (R82, log 8).
  Raised by the fetch of an access turn. Safe. -/
  | outsideWindow
  deriving DecidableEq, Repr

/-- The state right after reset (R340, R30); no turn is pending and no read has returned. -/
def State.reset : State :=
  { h0 := 0#32, h1 := 0#32, h2 := 0#32, h3 := 0#32
    a := 0#32, b := 0#32, c := 0#32, d := 0#32
    phase := .idle, rnd := 0#7, nxt := 0#2
    mbuf := [], bcnt := 0#7, len := 0#64, data := 0#32
    ie := false, err := false, errcode := 0#4
    turns := [], rdata := none }

end Sys2Proof.Machine
end

