-- ==== Sys2Proof/Machine/Ops.lean ====
section
/-! DEFINITION. The named operations over MBUF and the registers that the meanings share: MBUF reads and
writes (20_memory.md R70, R71), `raise CmdError` and its clearing (60_exceptions.md R302, R309), the
command gate (40_host_interface.md R146), the block start (42_mixer.md R208) and a read's answer. -/

namespace Sys2Proof.Machine

/-! ### MBUF as memory -/

/-- MBUF[p] (R10): what is listed, else the unlisted contents. -/
def Memory.read : Memory → Nat → Byte
  | [], _ => Config.mbufUnlisted
  | (q, v) :: m, p => if q = p then v else Memory.read m p

/-- Take every entry of address `p` out. -/
def Memory.erase (p : Nat) : Memory → Memory
  | [] => []
  | (q, v) :: m => if q = p then Memory.erase p m else (q, v) :: Memory.erase p m

/-- Put an entry of address `p` in, at its place in the rising order. -/
def Memory.insert (p : Nat) (v : Byte) : Memory → Memory
  | [] => [(p, v)]
  | (q, w) :: m =>
    if p < q then (p, v) :: (q, w) :: m
    else if p = q then (p, v) :: m
    else (q, w) :: Memory.insert p v m

/-- MBUF[p] <- v, keeping the canonical form. -/
def Memory.write (m : Memory) (p : Nat) (v : Byte) : Memory :=
  if v = Config.mbufUnlisted then Memory.erase p m else Memory.insert p v m

/-- MBUF[p], MBUF[p+1], ... <- the bytes of the list, in order. -/
def Memory.writeBytes : Memory → Nat → List Byte → Memory
  | m, _, [] => m
  | m, p, v :: vs => Memory.writeBytes (Memory.write m p v) (p + 1) vs

/-- MBUF with every byte 0x00 (R148, R340). -/
def Memory.zeros : Memory := []

/-- From address `lo` on: addresses strictly rising, inside MBUF, and no entry equal to the unlisted
contents. -/
def Memory.wfFrom : Nat → Memory → Bool
  | _, [] => true
  | lo, (q, v) :: m =>
    decide (lo ≤ q) && decide (q < Config.mbufSize) && decide (v ≠ Config.mbufUnlisted) &&
      Memory.wfFrom (q + 1) m

/-- The canonical form of MBUF. -/
def Memory.wf (m : Memory) : Bool := Memory.wfFrom 0 m

/-! ### Register encodings -/

/-- The values of PHASE (R33). -/
def Phase.bits : Phase → BitVec 2
  | .idle => 0#2
  | .absorb => 1#2
  | .run => 2#2
  | .done => 3#2

/-- The values of NEXT (R35). -/
def BlockNext.bits : BlockNext → BitVec 2
  | .cont => 0#2
  | .pad2 => 1#2
  | .last => 2#2

/-- The ERRCODE values of the three causes (R301). -/
def CmdError.code : CmdError → BitVec 4
  | .illegalCmd => 1#4
  | .busy => 2#4
  | .sequence => 3#4

/-- The ERRCODE value NONE (R301). -/
def errNone : BitVec 4 := 0#4

/-! ### Errors: the engine's whole exception mechanism (R300) -/

/-- `raise CmdError(code)` (R302): the first error is kept. There is no saved program counter and no
vector (R300); the host sees ERR and ERRCODE in STATUS, and `irq`. -/
def State.raiseCmdError (s : State) (e : CmdError) : State :=
  if s.err then s else { s with err := true, errcode := e.code }

/-- The one way back from an error besides reset: what INIT does to ERR and ERRCODE (R148, R309). -/
def State.clearError (s : State) : State := { s with err := false, errcode := errNone }

/-- The gate of PUSH and FINAL (R146), in the order of R306: locked and silent while ERR = 1, then
BUSY in RUN, SEQUENCE in IDLE and DONE, and the command's own effect in ABSORB. -/
def State.gated (s : State) (accepted : State → Host.Outcome State Fault Refusal) :
    Host.Outcome State Fault Refusal :=
  if s.err then .next s
  else
    match s.phase with
    | .run => .next (s.raiseCmdError .busy)
    | .idle => .next (s.raiseCmdError .sequence)
    | .done => .next (s.raiseCmdError .sequence)
    | .absorb => accepted s

/-- Guard of a command that stores `n` bytes from MBUF[BCNT] on: every one of them exists (R70). -/
def State.ifRoom (s : State) (n : Nat) (o : Host.Outcome State Fault Refusal) :
    Host.Outcome State Fault Refusal :=
  if s.bcnt.toNat + n ≤ Config.mbufSize then o else .fault .mbufOutOfRange

/-! ### Block start and read answer -/

/-- StartBlock(nxt) (R208): part of the command's step. -/
def State.startBlock (s : State) (nxt : BlockNext) : State :=
  { s with
    a := s.h0, b := s.h1, c := s.h2, d := s.h3
    rnd := 0#7, nxt := nxt.bits, phase := .run }

/-- RDATA <- v: the read returns `v` to the host and changes nothing of the engine (R76, R78). -/
def State.answer (s : State) (v : Word) : State := { s with rdata := some v }

end Sys2Proof.Machine
end

