-- ==== Sys2Proof/Machine/Operands.lean ====
section
/-! DEFINITION. Every operand form: DATA byte lanes (20_memory.md R72), the tail bytes of FINAL
(30_encoding.md R105), message words (20_memory.md R73), the length bytes (R74), and a round's index
(30_encoding.md R106, R107). -/

namespace Sys2Proof.Machine

/-- DATA byte lane j, `DATA[8j+7:8j]` (R72). -/
def dataLane (v : Word) (j : Nat) : Byte := v.extractLsb' (8 * j) 8

/-- DATA lanes 0..t-1 in message order (R72): four for PUSH (R149), TAIL of them for FINAL (R105). -/
def dataLanes (v : Word) (t : Nat) : List Byte :=
  [dataLane v 0, dataLane v 1, dataLane v 2, dataLane v 3].take t

/-- A 32-bit little-endian word from its four bytes (R73). -/
def littleEndian (b0 b1 b2 b3 : Byte) : Word :=
  b0.setWidth 32 ||| b1.setWidth 32 <<< 8 ||| b2.setWidth 32 <<< 16 ||| b3.setWidth 32 <<< 24

/-- Word(g) of the block in MBUF (R73). -/
def Memory.word (m : Memory) (g : BitVec 4) : Word :=
  littleEndian (Memory.read m (4 * g.toNat)) (Memory.read m (4 * g.toNat + 1))
    (Memory.read m (4 * g.toNat + 2)) (Memory.read m (4 * g.toNat + 3))

/-- LE64(v): the 8 bytes of a 64-bit value, least significant first (R74). -/
def le64 (v : BitVec 64) : List Byte :=
  [v.extractLsb' 0 8, v.extractLsb' 8 8, v.extractLsb' 16 8, v.extractLsb' 24 8,
   v.extractLsb' 32 8, v.extractLsb' 40 8, v.extractLsb' 48 8, v.extractLsb' 56 8]

/-- The selector SEL = NEXT : RND (R106). -/
def State.sel (s : State) : BitVec 9 := s.nxt ++ s.rnd

/-- The round index i = RND[5:0] of quarter q and low part j (R106, R107). -/
def roundIndex (q : BitVec 2) (j : BitVec 4) : BitVec 6 := q ++ j

/-- The quarter q = i[5:4] (R107). -/
def quarter (i : BitVec 6) : BitVec 2 := i.extractLsb' 4 2

end Sys2Proof.Machine
end

