-- ==== Sys2Proof/Machine/Rom.lean ====
section
/-! DEFINITION. The read-only constant tables (10_state.md R47, 42_mixer.md R205 to R207). No operation
and no reset changes them. -/

namespace Sys2Proof.Machine

/-- K[0] to K[15] (R206). -/
def kQuarter0 : List Word :=
  [0xD76AA478#32, 0xE8C7B756#32, 0x242070DB#32, 0xC1BDCEEE#32,
   0xF57C0FAF#32, 0x4787C62A#32, 0xA8304613#32, 0xFD469501#32,
   0x698098D8#32, 0x8B44F7AF#32, 0xFFFF5BB1#32, 0x895CD7BE#32,
   0x6B901122#32, 0xFD987193#32, 0xA679438E#32, 0x49B40821#32]

/-- K[16] to K[31] (R206). -/
def kQuarter1 : List Word :=
  [0xF61E2562#32, 0xC040B340#32, 0x265E5A51#32, 0xE9B6C7AA#32,
   0xD62F105D#32, 0x02441453#32, 0xD8A1E681#32, 0xE7D3FBC8#32,
   0x21E1CDE6#32, 0xC33707D6#32, 0xF4D50D87#32, 0x455A14ED#32,
   0xA9E3E905#32, 0xFCEFA3F8#32, 0x676F02D9#32, 0x8D2A4C8A#32]

/-- K[32] to K[47] (R206). -/
def kQuarter2 : List Word :=
  [0xFFFA3942#32, 0x8771F681#32, 0x6D9D6122#32, 0xFDE5380C#32,
   0xA4BEEA44#32, 0x4BDECFA9#32, 0xF6BB4B60#32, 0xBEBFBC70#32,
   0x289B7EC6#32, 0xEAA127FA#32, 0xD4EF3085#32, 0x04881D05#32,
   0xD9D4D039#32, 0xE6DB99E5#32, 0x1FA27CF8#32, 0xC4AC5665#32]

/-- K[48] to K[63] (R206). -/
def kQuarter3 : List Word :=
  [0xF4292244#32, 0x432AFF97#32, 0xAB9423A7#32, 0xFC93A039#32,
   0x655B59C3#32, 0x8F0CCC92#32, 0xFFEFF47D#32, 0x85845DD1#32,
   0x6FA87E4F#32, 0xFE2CE6E0#32, 0xA3014314#32, 0x4E0811A1#32,
   0xF7537E82#32, 0xBD3AF235#32, 0x2AD7D2BB#32, 0xEB86D391#32]

/-- The K ROM: 64 words of 32 bits, addressed by the round index (R206, R113). -/
def kRom : List Word := kQuarter0 ++ kQuarter1 ++ kQuarter2 ++ kQuarter3

/-- K[i] (R206). -/
def kWord (i : BitVec 6) : Word := kRom.getD i.toNat 0#32

/-- One quarter of the s ROM: its four amounts, by i mod 4 (R207). -/
def sQuarter (q : BitVec 2) : List (BitVec 5) :=
  if q = 0#2 then [7#5, 12#5, 17#5, 22#5]
  else if q = 1#2 then [5#5, 9#5, 14#5, 20#5]
  else if q = 2#2 then [4#5, 11#5, 16#5, 23#5]
  else [6#5, 10#5, 15#5, 21#5]

/-- s[i] = S[i[5:4]][i[1:0]]: 64 entries of 5 bits (R207, R113). -/
def sAmount (i : BitVec 6) : BitVec 5 :=
  (sQuarter (i.extractLsb' 4 2)).getD (i.extractLsb' 0 2).toNat 0#5

/-- IV[0], loaded into H0 (R205). -/
def iv0 : Word := 0x67452301#32
/-- IV[1], loaded into H1 (R205). -/
def iv1 : Word := 0xEFCDAB89#32
/-- IV[2], loaded into H2 (R205). -/
def iv2 : Word := 0x98BADCFE#32
/-- IV[3], loaded into H3 (R205). -/
def iv3 : Word := 0x10325476#32

end Sys2Proof.Machine
end

