-- ==== Sys2Proof/Machine/Mixer.lean ====
section
/-! DEFINITION. The datapath of the state mixer (42_mixer.md R200 to R204, R209): function mux, index
schedule, barrel shifter, one round, and the accumulator. -/

namespace Sys2Proof.Machine

/-- Four 32-bit words in the order a, b, c, d: the working registers or the chaining state (R31, R32). -/
structure Quad where
  a : Word
  b : Word
  c : Word
  d : Word
  deriving DecidableEq, Repr

/-- The nonlinear function mux (R200): F, G, H, I by quarter. A is no input. -/
def fmux (q : BitVec 2) (b c d : Word) : Word :=
  if q = 0#2 then (b &&& c) ||| (~~~b &&& d)
  else if q = 1#2 then (d &&& b) ||| (~~~d &&& c)
  else if q = 2#2 then b ^^^ c ^^^ d
  else c ^^^ (b ||| ~~~d)

/-- The message-word index schedule g(i) (R201); a 4-bit value is taken mod 16. -/
def gIndex (i : BitVec 6) : BitVec 4 :=
  if quarter i = 0#2 then BitVec.ofNat 4 i.toNat
  else if quarter i = 1#2 then BitVec.ofNat 4 (5 * i.toNat + 1)
  else if quarter i = 2#2 then BitVec.ofNat 4 (3 * i.toNat + 5)
  else BitVec.ofNat 4 (7 * i.toNat)

/-- The rotation barrel shifter (R203). -/
def rotl32 (x : Word) (n : BitVec 5) : Word :=
  if n = 0#5 then x else (x <<< n.toNat) ||| (x >>> (32 - n.toNat))

/-- One round with index i and message word m (R204): all four words from the values before. -/
def roundQuad (i : BitVec 6) (m : Word) (w : Quad) : Quad :=
  let t := fmux (quarter i) w.b w.c w.d + w.a + kWord i + m
  { a := w.d, b := w.b + rotl32 t (sAmount i), c := w.b, d := w.c }

/-- The four accumulator sums (R209). -/
def Quad.add (x y : Quad) : Quad :=
  { a := x.a + y.a, b := x.b + y.b, c := x.c + y.c, d := x.d + y.d }

/-- A, B, C, D. -/
def State.work (s : State) : Quad := { a := s.a, b := s.b, c := s.c, d := s.d }

/-- H0, H1, H2, H3. -/
def State.chainQuad (s : State) : Quad := { a := s.h0, b := s.h1, c := s.h2, d := s.h3 }

/-- A, B, C, D <- w. -/
def State.setWork (s : State) (w : Quad) : State := { s with a := w.a, b := w.b, c := w.c, d := w.d }

/-- H0, H1, H2, H3 <- w. -/
def State.setChain (s : State) (w : Quad) : State :=
  { s with h0 := w.a, h1 := w.b, h2 := w.c, h3 := w.d }

/-- The round datapath on the engine (R204): A, B, C, D from Word(g(i)), and RND <- i + 1. -/
def State.round (s : State) (i : BitVec 6) : State :=
  let s' := s.setWork (roundQuad i (Memory.word s.mbuf (gIndex i)) s.work)
  { s' with rnd := i.setWidth 7 + 1#7 }

/-- Accumulate() (R209). -/
def State.accumulate (s : State) : State := s.setChain (s.chainQuad.add s.work)

/-- A round as a micro-operation: the selector's NEXT = 3 is unreachable and faults (R109, log 6);
otherwise the round datapath. -/
def State.selectedRound (s : State) (n : BitVec 2) (i : BitVec 6) : Host.Outcome State Fault Refusal :=
  if n = 3#2 then .fault .unreachableSelector else .next (s.round i)

end Sys2Proof.Machine
end

