-- ==== Sys2Proof/Machine/Padder.lean ====
section
/-! DEFINITION. The padder (41_padder.md R172, R173). -/

namespace Sys2Proof.Machine

/-- What PadFinal(b, L) returns: whether the length fits in this block (R172). -/
def padNext (b : Nat) : BlockNext := if b ≤ 55 then .last else .pad2

/-- What PadFinal(b, L) writes to MBUF (R172): the terminator, then zeros and the length, or zeros to
the end of the block. -/
def padFinal (m : Memory) (b : Nat) (len : BitVec 64) : Memory :=
  let m1 := Memory.write m b 0x80#8
  if b ≤ 55 then
    Memory.writeBytes (Memory.writeBytes m1 (b + 1) (List.replicate (55 - b) 0x00#8)) 56 (le64 len)
  else Memory.writeBytes m1 (b + 1) (List.replicate (63 - b) 0x00#8)

/-- PadBlock(L) (R173): 56 zero bytes and the length. -/
def padBlock (m : Memory) (len : BitVec 64) : Memory :=
  Memory.writeBytes (Memory.writeBytes m 0 (List.replicate 56 0x00#8)) 56 (le64 len)

end Sys2Proof.Machine
end

