-- ==== Sys2Proof/Machine/Engine.lean ====
section
/-! DEFINITION. The engine's micro-operations (42_mixer.md R210 to R216). They are enabled only while
PHASE = RUN (R217); the fetch of an engine step holds that condition (log 9). -/

namespace Sys2Proof.Machine

/-- ROUND_F, i = 0..15 (R210). -/
def execRoundF (n : BitVec 2) (j : BitVec 4) (s : State) : Host.Outcome State Fault Refusal :=
  s.selectedRound n (roundIndex 0#2 j)

/-- ROUND_G, i = 16..31 (R211). -/
def execRoundG (n : BitVec 2) (j : BitVec 4) (s : State) : Host.Outcome State Fault Refusal :=
  s.selectedRound n (roundIndex 1#2 j)

/-- ROUND_H, i = 32..47 (R212). -/
def execRoundH (n : BitVec 2) (j : BitVec 4) (s : State) : Host.Outcome State Fault Refusal :=
  s.selectedRound n (roundIndex 2#2 j)

/-- ROUND_I, i = 48..63 (R213). -/
def execRoundI (n : BitVec 2) (j : BitVec 4) (s : State) : Host.Outcome State Fault Refusal :=
  s.selectedRound n (roundIndex 3#2 j)

/-- ACCUM_CONT (R214): back to ABSORB for more message words. MBUF is not cleared. -/
def execAccumCont (s : State) : Host.Outcome State Fault Refusal :=
  .next { s.accumulate with rnd := 0#7, bcnt := 0#7, phase := .absorb }

/-- ACCUM_PAD2 (R215): build the padding block and start it from the new chaining state. PHASE stays
RUN and BCNT stays 64. -/
def execAccumPad2 (s : State) : Host.Outcome State Fault Refusal :=
  let hn := s.chainQuad.add s.work
  .next
    { (s.setChain hn).setWork hn with
      mbuf := padBlock s.mbuf s.len, rnd := 0#7, nxt := BlockNext.last.bits }

/-- ACCUM_LAST (R216): the digest is in H0..H3. -/
def execAccumLast (s : State) : Host.Outcome State Fault Refusal :=
  .next { s.accumulate with rnd := 0#7, phase := .done }

end Sys2Proof.Machine
end

