-- ==== Sys2Proof/Machine/Flags.lean ====
section
/-! DEFINITION. The status flags and every view of state a read returns (10_state.md R41, R49), and the
interrupt output (60_exceptions.md R311). No operation sets arithmetic flags (R49, R219). -/

namespace Sys2Proof.Machine

/-- STATUS.BUSY: 1 exactly when PHASE = RUN (R41). -/
def State.busy (s : State) : Bool := decide (s.phase = .run)

/-- STATUS.DONE: 1 exactly when PHASE = DONE (R41). -/
def State.isDone (s : State) : Bool := decide (s.phase = .done)

/-- A flag as a 32-bit value. -/
def flagWord (x : Bool) : Word := if x then 1#32 else 0#32

/-- STATUS (R41, R134). -/
def State.status (s : State) : Word :=
  s.bcnt.setWidth 32 <<< 16 ||| s.phase.bits.setWidth 32 <<< 8 ||| s.errcode.setWidth 32 <<< 4 |||
    flagWord s.err <<< 2 ||| flagWord s.isDone <<< 1 ||| flagWord s.busy

/-- ID (R43). -/
def idWord : Word := 0x4D443501#32

/-- CTRL as read: bits 31:1 are reserved and read 0 (R40, R133). -/
def State.ctrl (s : State) : Word := flagWord s.ie

/-- LEN_LO = LEN[31:0] (R45). -/
def State.lenLo (s : State) : Word := s.len.extractLsb' 0 32

/-- LEN_HI = LEN[63:32] (R45). -/
def State.lenHi (s : State) : Word := s.len.extractLsb' 32 32

/-- Hk, k = 0..3 (R31). -/
def State.chain (s : State) (k : BitVec 2) : Word :=
  if k = 0#2 then s.h0 else if k = 1#2 then s.h1 else if k = 2#2 then s.h2 else s.h3

/-- DIGESTk as read: Hk while PHASE = DONE, else 0 (R46, R139). -/
def State.digestWord (s : State) (k : BitVec 2) : Word :=
  if s.phase = .done then s.chain k else 0#32

/-- The interrupt output, a level: irq = IE AND (DONE OR ERR) (R311). -/
def State.irq (s : State) : Bool := s.ie && (s.isDone || s.err)

end Sys2Proof.Machine
end

