-- ==== Sys2Proof/Machine/HostRead.lean ====
section
/-! DEFINITION. The bus reads (40_host_interface.md R132 to R140): each returns a value and writes
nothing of the engine (20_memory.md R78). -/

namespace Sys2Proof.Machine

/-- RD_ID (R132). -/
def execRdId (s : State) : Host.Outcome State Fault Refusal := .next (s.answer idWord)

/-- RD_CTRL (R133). -/
def execRdCtrl (s : State) : Host.Outcome State Fault Refusal := .next (s.answer s.ctrl)

/-- RD_STATUS (R134). -/
def execRdStatus (s : State) : Host.Outcome State Fault Refusal := .next (s.answer s.status)

/-- RD_CMD (R135): CMD reads 0. -/
def execRdCmd (s : State) : Host.Outcome State Fault Refusal := .next (s.answer 0#32)

/-- RD_DATA (R136). -/
def execRdData (s : State) : Host.Outcome State Fault Refusal := .next (s.answer s.data)

/-- RD_LEN_LO (R137). -/
def execRdLenLo (s : State) : Host.Outcome State Fault Refusal := .next (s.answer s.lenLo)

/-- RD_LEN_HI (R138). -/
def execRdLenHi (s : State) : Host.Outcome State Fault Refusal := .next (s.answer s.lenHi)

/-- RD_RSV at index 7 (R140). -/
def execRdRsv7 (s : State) : Host.Outcome State Fault Refusal := .next (s.answer 0#32)

/-- RD_DIGEST k (R139). -/
def execRdDigest (k : BitVec 2) (s : State) : Host.Outcome State Fault Refusal :=
  .next (s.answer (s.digestWord k))

/-- RD_RSV at indices 12 to 15 (R140). -/
def execRdRsvHigh (_k : BitVec 2) (s : State) : Host.Outcome State Fault Refusal :=
  .next (s.answer 0#32)

end Sys2Proof.Machine
end

