-- ==== Sys2Proof/WellFormed.lean ====
section
/-! DEFINITION. Which instructions exist: a round's selector never holds NEXT = 3 (30_encoding.md R109).
Every other operand takes every value of its width. -/

namespace Sys2Proof

/-- The NEXT field of a selector is CONT, PAD2 or LAST (R35, R109). -/
def nextFieldOk (n : BitVec 2) : Bool := n != 3#2

/-- A well-formed instruction. The operands `k`, `v`, `t` and `j` are legal at every value
(R101, R104, R105, R106). -/
def Instr.wf : Instr → Bool
  | .roundF n _ => nextFieldOk n
  | .roundG n _ => nextFieldOk n
  | .roundH n _ => nextFieldOk n
  | .roundI n _ => nextFieldOk n
  | .rdId | .rdCtrl | .rdStatus | .rdCmd | .rdData | .rdLenLo | .rdLenHi | .rdRsv7 => true
  | .rdDigest _ | .rdRsvHigh _ => true
  | .wrRoId _ | .wrCtrl _ | .wrRoStatus _ | .wrCmd _ | .wrData _ => true
  | .wrRoLenLo _ | .wrRoLenHi _ | .wrRsv7 _ | .wrRoDigest _ _ | .wrRsvHigh _ _ => true
  | .nop | .init | .push | .final _ => true
  | .accumCont | .accumPad2 | .accumLast => true

end Sys2Proof
end

