-- ==== Sys2Proof/Decode.lean ====
section
/-! DEFINITION. Decoding and encoding of the three formats (30_encoding.md R100 to R110). -/

namespace Sys2Proof

/-- Why an encoded operation is no instruction. -/
inductive DecodeError where
  /-- A CMD word that R104 does not list; a write of it raises ILLEGAL_CMD (R143, R303). -/
  | illegalCmd
  /-- A selector with RND 65 to 127, or RND 64 with NEXT 3 (R109). -/
  | unreachableSelector
  deriving DecidableEq, Repr

/-- A request with WE = 0, by its index IDX (R101, 20_memory.md R79). The last case is 11kk. -/
def decodeRead (idx : BitVec 4) : Instr :=
  if idx = 0#4 then .rdId
  else if idx = 1#4 then .rdCtrl
  else if idx = 2#4 then .rdStatus
  else if idx = 3#4 then .rdCmd
  else if idx = 4#4 then .rdData
  else if idx = 5#4 then .rdLenLo
  else if idx = 6#4 then .rdLenHi
  else if idx = 7#4 then .rdRsv7
  else if idx.extractLsb' 2 2 = 0b10#2 then .rdDigest (idx.extractLsb' 0 2)
  else .rdRsvHigh (idx.extractLsb' 0 2)

/-- A request with WE = 1, by its index IDX (R101, 20_memory.md R79). The last case is 11kk. -/
def decodeWrite (idx : BitVec 4) (v : Word) : Instr :=
  if idx = 0#4 then .wrRoId v
  else if idx = 1#4 then .wrCtrl v
  else if idx = 2#4 then .wrRoStatus v
  else if idx = 3#4 then .wrCmd v
  else if idx = 4#4 then .wrData v
  else if idx = 5#4 then .wrRoLenLo v
  else if idx = 6#4 then .wrRoLenHi v
  else if idx = 7#4 then .wrRsv7 v
  else if idx.extractLsb' 2 2 = 0b10#2 then .wrRoDigest (idx.extractLsb' 0 2) v
  else .wrRsvHigh (idx.extractLsb' 0 2) v

/-- Format BUS: WE is bit 4, IDX bits 3:0; all 32 request words are legal (R101). -/
def decodeBus (req : BitVec 5) (wdata : Word) : Instr :=
  if req.getLsbD 4 then decodeWrite (req.extractLsb' 0 4) wdata
  else decodeRead (req.extractLsb' 0 4)

/-- Format CMD: OP is bits 3:0, TAIL bits 5:4, RSV bits 31:6; a word is legal when RSV = 0 and either
OP <= 2 and TAIL = 0, or OP = 3 (R102, R103, R104). -/
def decodeCmd (w : Word) : Option Command :=
  if w.extractLsb' 6 26 = 0#26 then
    if w.extractLsb' 0 4 = 3#4 then some (.final (w.extractLsb' 4 2))
    else if w.extractLsb' 4 2 = 0#2 then
      if w.extractLsb' 0 4 = 0#4 then some .nop
      else if w.extractLsb' 0 4 = 1#4 then some .init
      else if w.extractLsb' 0 4 = 2#4 then some .push
      else none
    else none
  else none

/-- A selector with RND[6] = 0: RND[5:4] is the quarter (R106). -/
def decodeRound (n : BitVec 2) (q : BitVec 2) (j : BitVec 4) : Instr :=
  if q = 0#2 then .roundF n j
  else if q = 1#2 then .roundG n j
  else if q = 2#2 then .roundH n j
  else .roundI n j

/-- Format SEL: NEXT is bits 8:7, RND bits 6:0 (R106); RND 65 to 127, and RND 64 with NEXT 3, are no
encodings (R109). A round's selector is read with the NEXT field it holds; NEXT = 3 is ill-formed
there and its meaning faults (log 6). -/
def decodeSel (v : BitVec 9) : Option Instr :=
  if v.getLsbD 6 = false then
    some (decodeRound (v.extractLsb' 7 2) (v.extractLsb' 4 2) (v.extractLsb' 0 4))
  else if v.extractLsb' 0 6 = 0#6 then
    if v.extractLsb' 7 2 = 0#2 then some .accumCont
    else if v.extractLsb' 7 2 = 1#2 then some .accumPad2
    else if v.extractLsb' 7 2 = 2#2 then some .accumLast
    else none
  else none

/-- The decoder: total, rejecting by name. -/
def decode : Encoded → Except DecodeError Instr
  | .bus req wdata => .ok (decodeBus req wdata)
  | .cmd w =>
    match decodeCmd w with
    | some c => .ok c.instr
    | none => .error .illegalCmd
  | .sel v =>
    match decodeSel v with
    | some i => .ok i
    | none => .error .unreachableSelector

/-- A read carries no WDATA (R101); the encoder writes zeros there. -/
def encodeRead (idx : BitVec 4) : Encoded := .bus (0b0#1 ++ idx) 0#32

/-- A write's request word and value (R101). -/
def encodeWrite (idx : BitVec 4) (v : Word) : Encoded := .bus (0b1#1 ++ idx) v

/-- A CMD word from its fields (R102). -/
def encodeCmd (tail : BitVec 2) (op : BitVec 4) : Encoded := .cmd (0#26 ++ tail ++ op)

/-- A selector from NEXT and RND (R106). -/
def encodeSel (n : BitVec 2) (rnd : BitVec 7) : Encoded := .sel (n ++ rnd)

/-- The encoder, row by row of the opcode table. -/
def encode : Instr → Encoded
  | .rdId => encodeRead 0b0000#4
  | .rdCtrl => encodeRead 0b0001#4
  | .rdStatus => encodeRead 0b0010#4
  | .rdCmd => encodeRead 0b0011#4
  | .rdData => encodeRead 0b0100#4
  | .rdLenLo => encodeRead 0b0101#4
  | .rdLenHi => encodeRead 0b0110#4
  | .rdRsv7 => encodeRead 0b0111#4
  | .rdDigest k => encodeRead (0b10#2 ++ k)
  | .rdRsvHigh k => encodeRead (0b11#2 ++ k)
  | .wrRoId v => encodeWrite 0b0000#4 v
  | .wrCtrl v => encodeWrite 0b0001#4 v
  | .wrRoStatus v => encodeWrite 0b0010#4 v
  | .wrCmd v => encodeWrite 0b0011#4 v
  | .wrData v => encodeWrite 0b0100#4 v
  | .wrRoLenLo v => encodeWrite 0b0101#4 v
  | .wrRoLenHi v => encodeWrite 0b0110#4 v
  | .wrRsv7 v => encodeWrite 0b0111#4 v
  | .wrRoDigest k v => encodeWrite (0b10#2 ++ k) v
  | .wrRsvHigh k v => encodeWrite (0b11#2 ++ k) v
  | .nop => encodeCmd 0#2 0x0#4
  | .init => encodeCmd 0#2 0x1#4
  | .push => encodeCmd 0#2 0x2#4
  | .final t => encodeCmd t 0x3#4
  | .roundF n j => encodeSel n (0b000#3 ++ j)
  | .roundG n j => encodeSel n (0b001#3 ++ j)
  | .roundH n j => encodeSel n (0b010#3 ++ j)
  | .roundI n j => encodeSel n (0b011#3 ++ j)
  | .accumCont => encodeSel 0b00#2 0b1000000#7
  | .accumPad2 => encodeSel 0b01#2 0b1000000#7
  | .accumLast => encodeSel 0b10#2 0b1000000#7

/-- An operation given as a number of `nbits` bits, bit 0 least significant, in the opcode table's
numbering. The width says the format (R100): up to 8 bits a request word in its byte (its WDATA bits
zero), up to 16 a selector, up to 32 a CMD word, up to 40 a request byte followed by its 32-bit WDATA
(R111 writes a line as REQ followed by WDATA; the byte framing is log 4). -/
def encodedOfBits (nbits w : Nat) : Option Encoded :=
  if nbits = 0 then none
  else if nbits ≤ 8 then
    if w < 2 ^ 5 then some (.bus (BitVec.ofNat 5 w) 0#32) else none
  else if nbits ≤ 16 then
    if w < 2 ^ 9 then some (.sel (BitVec.ofNat 9 w)) else none
  else if nbits ≤ 32 then
    if w < 2 ^ 32 then some (.cmd (BitVec.ofNat 32 w)) else none
  else if nbits ≤ 40 then
    if w % 2 ^ 8 < 2 ^ 5 ∧ w < 2 ^ 40 then
      some (.bus (BitVec.ofNat 5 w) (BitVec.ofNat 32 (w / 2 ^ 8)))
    else none
  else none

/-- The instruction the decoder reads from an opcode-table word. -/
def decodeTableWord (nbits w : Nat) : Option Instr :=
  match encodedOfBits nbits w with
  | none => none
  | some e =>
    match decode e with
    | .ok i => some i
    | .error _ => none

end Sys2Proof
end

