-- ==== Sys2Proof/Machine/Command.lean ====
section
/-! DEFINITION. The commands (40_host_interface.md R146 to R150). -/

namespace Sys2Proof.Machine

/-- NOP (R147): no effect, no gate. -/
def execNop (s : State) : Host.Outcome State Fault Refusal := .next s

/-- INIT (R148, R344): open a session. DATA and IE are not changed; the gate is not applied. -/
def execInit (s : State) : Host.Outcome State Fault Refusal :=
  .next
    { s.clearError with
      h0 := iv0, h1 := iv1, h2 := iv2, h3 := iv3
      a := 0#32, b := 0#32, c := 0#32, d := 0#32
      rnd := 0#7, nxt := BlockNext.cont.bits
      mbuf := Memory.zeros, bcnt := 0#7, len := 0#64
      phase := .absorb }

/-- What an accepted PUSH does (R149): four bytes, LEN + 32, and on the sixteenth word of a block the
block start in the same step. -/
def State.pushed (s : State) : State :=
  let s1 :=
    { s with
      mbuf := Memory.writeBytes s.mbuf s.bcnt.toNat (dataLanes s.data 4)
      len := s.len + 32#64 }
  if s.bcnt.toNat + 4 = 64 then { s1 with bcnt := 64#7 }.startBlock .cont
  else { s1 with bcnt := s.bcnt + 4#7 }

/-- PUSH (R149). -/
def execPush (s : State) : Host.Outcome State Fault Refusal :=
  s.gated fun s => s.ifRoom 4 (.next s.pushed)

/-- What an accepted FINAL with tail t does (R150): the tail, LEN + 8t, PadFinal, the block start. -/
def State.finalised (s : State) (t : BitVec 2) : State :=
  let b := s.bcnt.toNat + t.toNat
  let len' := s.len + BitVec.ofNat 64 (8 * t.toNat)
  let tailed := Memory.writeBytes s.mbuf s.bcnt.toNat (dataLanes s.data t.toNat)
  { s with mbuf := padFinal tailed b len', len := len', bcnt := 64#7 }.startBlock (padNext b)

/-- FINAL (R150): the tail and the terminator need t + 1 bytes of the block. -/
def execFinal (t : BitVec 2) (s : State) : Host.Outcome State Fault Refusal :=
  s.gated fun s => s.ifRoom (t.toNat + 1) (.next (s.finalised t))

end Sys2Proof.Machine
end

