-- ==== Sys2Proof/Machine/HostWrite.lean ====
section
/-! DEFINITION. The bus writes (40_host_interface.md R141 to R145). -/

namespace Sys2Proof.Machine

/-- WR_RO to ID (R144): no effect. -/
def execWrRoId (_v : Word) (s : State) : Host.Outcome State Fault Refusal := .next s

/-- WR_CTRL (R141): IE <- WDATA[0]. -/
def execWrCtrl (v : Word) (s : State) : Host.Outcome State Fault Refusal :=
  .next { s with ie := v.getLsbD 0 }

/-- WR_RO to STATUS (R144): no effect; ERR is not cleared (R309). -/
def execWrRoStatus (_v : Word) (s : State) : Host.Outcome State Fault Refusal := .next s

/-- The command a legal CMD word starts (R143). -/
def runCommand : Command → State → Host.Outcome State Fault Refusal
  | .nop, s => execNop s
  | .init, s => execInit s
  | .push, s => execPush s
  | .final t, s => execFinal t s

/-- WR_CMD (R143): an illegal word raises ILLEGAL_CMD in every phase, before every other check (R303,
R306); a legal word runs its command. -/
def execWrCmd (v : Word) (s : State) : Host.Outcome State Fault Refusal :=
  match decodeCmd v with
  | none => .next (s.raiseCmdError .illegalCmd)
  | some c => runCommand c s

/-- WR_DATA (R142): DATA <- WDATA. -/
def execWrData (v : Word) (s : State) : Host.Outcome State Fault Refusal := .next { s with data := v }

/-- WR_RO to LEN_LO (R144): no effect. -/
def execWrRoLenLo (_v : Word) (s : State) : Host.Outcome State Fault Refusal := .next s

/-- WR_RO to LEN_HI (R144): no effect. -/
def execWrRoLenHi (_v : Word) (s : State) : Host.Outcome State Fault Refusal := .next s

/-- WR_RSV at index 7 (R145): no effect. -/
def execWrRsv7 (_v : Word) (s : State) : Host.Outcome State Fault Refusal := .next s

/-- WR_RO to DIGESTk (R144): no effect. -/
def execWrRoDigest (_k : BitVec 2) (_v : Word) (s : State) : Host.Outcome State Fault Refusal :=
  .next s

/-- WR_RSV at indices 12 to 15 (R145): no effect. -/
def execWrRsvHigh (_k : BitVec 2) (_v : Word) (s : State) : Host.Outcome State Fault Refusal :=
  .next s

end Sys2Proof.Machine
end

