-- ==== Sys2Proof/Machine/Dispatch.lean ====
section
/-! DEFINITION. One arm per constructor of Instr: the meaning it runs. -/

namespace Sys2Proof.Machine

def exec (i : Instr) (s : State) : Host.Outcome State Fault Refusal :=
  match i with
  | .rdId => Sys2Proof.Machine.execRdId s
  | .rdCtrl => Sys2Proof.Machine.execRdCtrl s
  | .rdStatus => Sys2Proof.Machine.execRdStatus s
  | .rdCmd => Sys2Proof.Machine.execRdCmd s
  | .rdData => Sys2Proof.Machine.execRdData s
  | .rdLenLo => Sys2Proof.Machine.execRdLenLo s
  | .rdLenHi => Sys2Proof.Machine.execRdLenHi s
  | .rdRsv7 => Sys2Proof.Machine.execRdRsv7 s
  | .rdDigest k => Sys2Proof.Machine.execRdDigest k s
  | .rdRsvHigh k => Sys2Proof.Machine.execRdRsvHigh k s
  | .wrRoId v => Sys2Proof.Machine.execWrRoId v s
  | .wrCtrl v => Sys2Proof.Machine.execWrCtrl v s
  | .wrRoStatus v => Sys2Proof.Machine.execWrRoStatus v s
  | .wrCmd v => Sys2Proof.Machine.execWrCmd v s
  | .wrData v => Sys2Proof.Machine.execWrData v s
  | .wrRoLenLo v => Sys2Proof.Machine.execWrRoLenLo v s
  | .wrRoLenHi v => Sys2Proof.Machine.execWrRoLenHi v s
  | .wrRsv7 v => Sys2Proof.Machine.execWrRsv7 v s
  | .wrRoDigest k v => Sys2Proof.Machine.execWrRoDigest k v s
  | .wrRsvHigh k v => Sys2Proof.Machine.execWrRsvHigh k v s
  | .nop => Sys2Proof.Machine.execNop s
  | .init => Sys2Proof.Machine.execInit s
  | .push => Sys2Proof.Machine.execPush s
  | .final t => Sys2Proof.Machine.execFinal t s
  | .roundF n j => Sys2Proof.Machine.execRoundF n j s
  | .roundG n j => Sys2Proof.Machine.execRoundG n j s
  | .roundH n j => Sys2Proof.Machine.execRoundH n j s
  | .roundI n j => Sys2Proof.Machine.execRoundI n j s
  | .accumCont => Sys2Proof.Machine.execAccumCont s
  | .accumPad2 => Sys2Proof.Machine.execAccumPad2 s
  | .accumLast => Sys2Proof.Machine.execAccumLast s

end Sys2Proof.Machine
end

