-- ==== Sys2Proof/Machine/Fetch.lean ====
section
/-! DEFINITION. What the next turn runs: a bus request of the host (30_encoding.md R101), a platform
access placed in the window (20_memory.md R76, R77, R82), the engine's selector while PHASE = RUN
(30_encoding.md R106, 42_mixer.md R217), or reset (70_reset_and_hazards.md R341). -/

namespace Sys2Proof.Machine

/-- What a turn turned out to be, with the state in which the turn is spent. -/
inductive Fetched where
  | instr (i : Instr) (s : State)
  /-- No agent has an enabled step: nothing happens. -/
  | idle (s : State)
  | reset (s : State)
  | fault (f : Fault)
  | refused (r : Refusal)
  deriving DecidableEq, Repr

/-- The engine agent: exactly one enabled step while PHASE = RUN, chosen by SEL, and none in any other
phase (R217); a selector that is no encoding faults (R109). -/
def fetchEngine (s : State) : Fetched :=
  if s.phase = .run then
    match decodeSel s.sel with
    | some i => .instr i s
    | none => .fault .unreachableSelector
  else .idle s

/-- The host agent: one bus operation (R76). A read returns RDATA, a write nothing (R101). -/
def fetchBus (req : BitVec 5) (wdata : Word) (s : State) : Fetched :=
  .instr (decodeBus req wdata) { s with rdata := none }

/-- The byte ranges of an access and of the window share a byte (R82). -/
def touchesWindow (size addr : Nat) : Bool :=
  decide (addr < Config.md5Base + 64) && decide (Config.md5Base < addr + size)

/-- A platform access: a full aligned word at `MD5_BASE + 4 * IDX` is the bus operation on IDX (R76,
R82); any other access to the window is refused (R77), and one elsewhere is not the engine's (log 8). -/
def fetchAccess (size addr : Nat) (write : Option Word) (s : State) : Fetched :=
  if touchesWindow size addr then
    if size = 4 ∧ addr % 4 = 0 then
      let idx := BitVec.ofNat 4 ((addr - Config.md5Base) / 4)
      match write with
      | none => fetchBus (0b0#1 ++ idx) 0#32 s
      | some v => fetchBus (0b1#1 ++ idx) v s
    else .refused .narrowOrMisaligned
  else .refused .outsideWindow

/-- The state of R340, with the turns that follow the reset kept (log 1). -/
def State.afterReset (s : State) : State := { State.reset with turns := s.turns }

/-- The next turn. With no turn left the host does nothing more and the engine goes on (the fairness
of R85). -/
def fetch (s : State) : Fetched :=
  match s.turns with
  | [] => fetchEngine s
  | .engine :: ts => fetchEngine { s with turns := ts }
  | .bus req wdata :: ts => fetchBus req wdata { s with turns := ts }
  | .access size addr write :: ts => fetchAccess size addr write { s with turns := ts }
  | .reset :: ts => .reset { s with turns := ts }.afterReset

/-- Place an operation of the opcode table where the next turn is taken from: a BUS request as the
next bus operation, a CMD word as a bus write of it to CMD (R102, R143), a selector as PHASE = RUN with
its NEXT and RND and an engine turn (R106). -/
def State.place (s : State) : Encoded → State
  | .bus req wdata => { s with turns := .bus req wdata :: s.turns }
  | .cmd w => { s with turns := .bus 0b10011#5 w :: s.turns }
  | .sel v =>
    { s with
      phase := .run, nxt := v.extractLsb' 7 2, rnd := v.extractLsb' 0 7
      turns := .engine :: s.turns }

end Sys2Proof.Machine
end

