-- ==== Sys2Proof/Machine/Step.lean ====
section
/-! DEFINITION. One step of the machine: one atomic transition of one agent (00_scope.md R11). -/

namespace Sys2Proof.Machine

/-- Take the next turn and run what it is. -/
def step (s : State) : Host.Outcome State Fault Refusal :=
  match fetch s with
  | .instr i s' => exec i s'
  | .idle s' => .next s'
  | .reset s' => .next s'
  | .fault f => .fault f
  | .refused r => .refused r

/-- `s` with the instruction of `nbits` bits `w` placed where `step` takes its next turn from (log 5);
a number that is no operation of that width places nothing. -/
def State.withFetchWord (s : State) (nbits w : Nat) : State :=
  match encodedOfBits nbits w with
  | none => s
  | some e => s.place e

end Sys2Proof.Machine
end

