-- ==== Sys2Proof/Machine/Serializer.lean ====
section
/-! DEFINITION. The little-endian digest serializer (43_serializer.md R250). -/

namespace Sys2Proof.Machine

/-- The four bytes of a word, least significant first (R250). -/
def wordBytes (w : Word) : List Byte := dataLanes w 4

/-- d[0..15] of four state words in the order a, b, c, d (R250). -/
def digestBytes (h : Quad) : List Byte :=
  wordBytes h.a ++ wordBytes h.b ++ wordBytes h.c ++ wordBytes h.d

/-- The digest, defined from H0..H3 (R250); it is the session's when PHASE = DONE. -/
def State.digest (s : State) : List Byte := digestBytes s.chainQuad

end Sys2Proof.Machine
end

