-- ==== Sys2Proof/Machine/Message.lean ====
section
/-! DEFINITION. The whole-message functions that the spec measures the engine against: the padded
message (41_padder.md R170), its 64-byte blocks (20_memory.md R71, R73), the compression of one block
(42_mixer.md R204, R209, R218) and the hash of a message. No step of the machine calls them; claims do. -/

namespace Sys2Proof.Machine

/-- The number of zero bytes, (55 - n) mod 64 (R170). -/
def padZeros (n : Nat) : Nat := (119 - n % 64) % 64

/-- P(m) (R170): the message, 0x80, zeros, and the bit length as LE64. -/
def padMessage (m : List Byte) : List Byte :=
  m ++ [0x80#8] ++ List.replicate (padZeros m.length) 0x00#8 ++ le64 (BitVec.ofNat 64 (8 * m.length))

/-- Bytes 64j..64j+63 (R71). -/
def messageBlock (p : List Byte) (j : Nat) : List Byte := (p.drop (64 * j)).take 64

/-- Word(g) of a block (R73). -/
def blockWord (blk : List Byte) (g : BitVec 4) : Word :=
  littleEndian (blk.getD (4 * g.toNat) 0x00#8) (blk.getD (4 * g.toNat + 1) 0x00#8)
    (blk.getD (4 * g.toNat + 2) 0x00#8) (blk.getD (4 * g.toNat + 3) 0x00#8)

/-- Rounds 0..n-1 on working words `w` (R204). -/
def rounds (word : BitVec 4 → Word) : Nat → Quad → Quad
  | 0, w => w
  | n + 1, w => roundQuad (BitVec.ofNat 6 n) (word (gIndex (BitVec.ofNat 6 n))) (rounds word n w)

/-- One block: 64 rounds from the chaining words, then the addition (R204, R209, R218). -/
def compress (word : BitVec 4 → Word) (h : Quad) : Quad := h.add (rounds word 64 h)

/-- The initial chaining value (R205). -/
def ivQuad : Quad := { a := iv0, b := iv1, c := iv2, d := iv3 }

/-- The chaining words after the first `k` blocks of `p`. -/
def chainAfter (p : List Byte) : Nat → Quad
  | 0 => ivQuad
  | k + 1 => compress (blockWord (messageBlock p k)) (chainAfter p k)

/-- The digest of a message: every block of P(m), serialized (R170, R175, R250). -/
def md5 (m : List Byte) : List Byte :=
  digestBytes (chainAfter (padMessage m) ((padMessage m).length / 64))

end Sys2Proof.Machine
end

