-- ==== Sys2Proof/Safety.lean ====
section
/-! DEFINITION. What a reachable state looks like (10_state.md R51), which turns the host may give, and
what it means that a state stands inside the session of a message (40_host_interface.md R131). -/

namespace Sys2Proof.Machine

/-- The invariant of R51, with the canonical form of MBUF. `lenBlock` and `errClear` are what the
writers of LEN and of ERRCODE leave beside R51's own clauses (R171, R302). -/
structure EngineInv (s : State) : Prop where
  /-- MBUF is in canonical form. -/
  mbufWf : Memory.wf s.mbuf = true
  /-- ABSORB: BCNT is a multiple of 4 and at most 60. -/
  absorbCount : s.phase = .absorb → s.bcnt.toNat % 4 = 0 ∧ s.bcnt.toNat ≤ 60
  /-- RUN or DONE: BCNT = 64. -/
  fullCount : s.phase = .run ∨ s.phase = .done → s.bcnt = 64#7
  /-- IDLE: everything but DATA, IE, ERR and ERRCODE is at its reset value. -/
  idleReset : s.phase = .idle →
    s = { State.reset with
          data := s.data, ie := s.ie, err := s.err, errcode := s.errcode
          turns := s.turns, rdata := s.rdata }
  /-- RND <= 64. -/
  rndRange : s.rnd.toNat ≤ 64
  /-- RND = 0 whenever PHASE is not RUN. -/
  rndIdle : s.phase ≠ .run → s.rnd = 0#7
  /-- NEXT is 0, 1 or 2. -/
  nxtLegal : s.nxt ≠ 3#2
  /-- ABSORB: LEN counts whole blocks and BCNT bytes. -/
  lenCount : s.phase = .absorb → s.len.toNat % 512 = 8 * s.bcnt.toNat
  /-- RUN with NEXT = CONT: LEN counts whole blocks. -/
  lenBlock : s.phase = .run → s.nxt = 0#2 → s.len.toNat % 512 = 0
  /-- ERRCODE is NONE exactly while ERR = 0 (R42). -/
  errClear : s.err = false ↔ s.errcode = errNone
  /-- The reserved ERRCODE values are never produced (R301). -/
  errRange : s.errcode.toNat ≤ 3

/-- `n` steps, stopping at the first fault or refusal. -/
def steps : Nat → State → Host.Outcome State Fault Refusal
  | 0, s => .next s
  | n + 1, s =>
    match step s with
    | .next t => steps n t
    | .fault f => .fault f
    | .refused r => .refused r

/-- A turn that the spec gives a meaning whatever the platform does: not a raw platform access. -/
def Turn.atPort : Turn → Bool
  | .access _ _ _ => false
  | .bus _ _ => true
  | .engine => true
  | .reset => true

/-- MBUF holds these bytes from address 0 on. -/
def mbufHolds (m : Memory) (blk : List Byte) : Prop :=
  ∀ p, p < blk.length → Memory.read m p = blk.getD p 0x00#8

/-- RUN inside the session of `m`: block `k` of the stream `p` is in MBUF and RND rounds of it are done. -/
structure Compressing (s : State) (p : List Byte) (k : Nat) : Prop where
  buffer : mbufHolds s.mbuf (messageBlock p k)
  full : 64 * (k + 1) ≤ p.length
  chain : s.chainQuad = chainAfter p k
  work : s.work = rounds (blockWord (messageBlock p k)) s.rnd.toNat s.chainQuad
  rnd : s.rnd.toNat ≤ 64

/-- The state stands in the session of the message `m`, the bytes absorbed since INIT (R131): LEN counts
them (R171), the blocks compressed so far are blocks of the message, or of the padded message once FINAL
was accepted (R71, R175), and in DONE all of them are. -/
def Session (s : State) (m : List Byte) : Prop :=
  s.len = BitVec.ofNat 64 (8 * m.length) ∧
  match s.phase with
  | .idle => False
  | .absorb =>
    m.length % 4 = 0 ∧ s.bcnt.toNat = m.length % 64 ∧
    mbufHolds s.mbuf (messageBlock m (m.length / 64)) ∧ s.chainQuad = chainAfter m (m.length / 64)
  | .run =>
    ∃ k,
      (s.nxt = BlockNext.cont.bits ∧ Compressing s m k ∧ m.length = 64 * (k + 1)) ∨
      (s.nxt = BlockNext.last.bits ∧ Compressing s (padMessage m) k ∧
        (padMessage m).length = 64 * (k + 1)) ∨
      (s.nxt = BlockNext.pad2.bits ∧ Compressing s (padMessage m) k ∧
        m.length / 64 = k ∧ (padMessage m).length = 64 * (k + 2))
  | .done => s.chainQuad = chainAfter (padMessage m) ((padMessage m).length / 64)

/-- The gate accepts PUSH and FINAL (R146). -/
def accepts (s : State) : Bool := !s.err && decide (s.phase = .absorb)

/-- The message of the session after a command (R131, R148 to R150). -/
def messageAfterCommand (s : State) (m : List Byte) : Command → List Byte
  | .nop => m
  | .init => []
  | .push => if accepts s then m ++ dataLanes s.data 4 else m
  | .final t => if accepts s then m ++ dataLanes s.data t.toNat else m

/-- The command an instruction is or starts. -/
def commandOf : Instr → Option Command
  | .wrCmd v => decodeCmd v
  | .nop => some .nop
  | .init => some .init
  | .push => some .push
  | .final t => some (.final t)
  | .rdId | .rdCtrl | .rdStatus | .rdCmd | .rdData | .rdLenLo | .rdLenHi | .rdRsv7 => none
  | .rdDigest _ | .rdRsvHigh _ => none
  | .wrRoId _ | .wrCtrl _ | .wrRoStatus _ | .wrData _ | .wrRoLenLo _ | .wrRoLenHi _ => none
  | .wrRsv7 _ | .wrRoDigest _ _ | .wrRsvHigh _ _ => none
  | .roundF _ _ | .roundG _ _ | .roundH _ _ | .roundI _ _ => none
  | .accumCont | .accumPad2 | .accumLast => none

/-- The message of the session after an instruction: only commands change it. -/
def messageAfter (i : Instr) (s : State) (m : List Byte) : List Byte :=
  match commandOf i with
  | none => m
  | some c => messageAfterCommand s m c

end Sys2Proof.Machine
end

