-- ==== Sys2Proof/Certificates/Slice0/Obligations.lean ====
section
/-! DEFINITION. The statements for the provers. Each docstring names the rules of spec/ it formalises. -/

open Sys2Proof Sys2Proof.Machine

/-! ### Encoding -/

/-- Words written out from R101, R102, R104 and R106, one or more of every format, stand for their
instructions, and R109's selectors for none. -/
def Obligations.SpecWordsDecode : Prop :=
  decode (.bus 0b00000#5 0#32) = .ok .rdId ∧
  decode (.bus 0b01010#5 0#32) = .ok (.rdDigest 2#2) ∧
  decode (.bus 0b10011#5 0x00000002#32) = .ok (.wrCmd 0x00000002#32) ∧
  decode (.bus 0b11101#5 5#32) = .ok (.wrRsvHigh 1#2 5#32) ∧
  decode (.cmd 0x00000001#32) = .ok .init ∧
  decode (.cmd 0x00000023#32) = .ok (.final 2#2) ∧
  decode (.cmd 0x00000012#32) = .error .illegalCmd ∧
  decode (.sel 0b000000101#9) = .ok (.roundF 0#2 5#4) ∧
  decode (.sel 0b100111111#9) = .ok (.roundI 2#2 15#4) ∧
  decode (.sel 0b011000000#9) = .ok .accumPad2 ∧
  decode (.sel 0b111000000#9) = .error .unreachableSelector ∧
  decode (.sel 0b001000001#9) = .error .unreachableSelector

/-- Decoding the encoding of a well-formed instruction gives it back, for every instruction and every
operand value (R100 to R107). -/
def Obligations.DecodeEncodeRoundTrip : Prop :=
  ∀ i : Instr, i.wf = true → decode (encode i) = .ok i

/-- Each encoded operation that decodes has one spelling: encoding what was decoded gives it back (a
read carries no WDATA, R101), so no two rows of the table share a word. -/
def Obligations.EncodeDecodeRoundTrip : Prop :=
  (∀ (req : BitVec 5) (w : Word), ∃ i : Instr, decode (.bus req w) = .ok i ∧
    encode i = .bus req (if req.getLsbD 4 then w else 0#32)) ∧
  (∀ (w : Word) (i : Instr), decode (.cmd w) = .ok i → encode i = .cmd w) ∧
  (∀ (v : BitVec 9) (i : Instr), decode (.sel v) = .ok i → encode i = .sel v)

/-- R104: exactly seven CMD words are legal, the formal condition describes the same words, and every
other value raises ILLEGAL_CMD and has no other effect. -/
def Obligations.ExactlySevenLegalCommands : Prop :=
  ∀ w : Word,
    ((∃ i, decode (.cmd w) = .ok i) ↔
      w ∈ [0x00000000#32, 0x00000001#32, 0x00000002#32,
           0x00000003#32, 0x00000013#32, 0x00000023#32, 0x00000033#32]) ∧
    ((∃ i, decode (.cmd w) = .ok i) ↔
      w.toNat / 64 = 0 ∧ ((w.toNat % 16 ≤ 2 ∧ w.toNat / 16 % 4 = 0) ∨ w.toNat % 16 = 3)) ∧
    ∀ s : State, (¬ ∃ i, decode (.cmd w) = .ok i) →
      exec (.wrCmd w) s = .next (if s.err then s else { s with err := true, errcode := 1#4 })

/-- R106: RND below 64 selects the round of quarter RND[5:4] whatever NEXT holds, RND 64 the accumulation
that NEXT names; and R109's remaining selectors are no encodings. -/
def Obligations.SelectorSelectsMicroOperation : Prop :=
  ∀ (n : BitVec 2) (rnd : BitVec 7),
    (rnd.toNat < 16 → decode (.sel (n ++ rnd)) = .ok (.roundF n (BitVec.ofNat 4 rnd.toNat))) ∧
    (16 ≤ rnd.toNat → rnd.toNat < 32 →
      decode (.sel (n ++ rnd)) = .ok (.roundG n (BitVec.ofNat 4 rnd.toNat))) ∧
    (32 ≤ rnd.toNat → rnd.toNat < 48 →
      decode (.sel (n ++ rnd)) = .ok (.roundH n (BitVec.ofNat 4 rnd.toNat))) ∧
    (48 ≤ rnd.toNat → rnd.toNat < 64 →
      decode (.sel (n ++ rnd)) = .ok (.roundI n (BitVec.ofNat 4 rnd.toNat))) ∧
    (rnd.toNat = 64 → n = 0#2 → decode (.sel (n ++ rnd)) = .ok .accumCont) ∧
    (rnd.toNat = 64 → n = 1#2 → decode (.sel (n ++ rnd)) = .ok .accumPad2) ∧
    (rnd.toNat = 64 → n = 2#2 → decode (.sel (n ++ rnd)) = .ok .accumLast) ∧
    (rnd.toNat = 64 → n = 3#2 → decode (.sel (n ++ rnd)) = .error .unreachableSelector) ∧
    (65 ≤ rnd.toNat → decode (.sel (n ++ rnd)) = .error .unreachableSelector)

/-! ### Bus reads: the whole next state is given, so each is its own frame -/

/-- R132. -/
def Obligations.IdReadReturnsConstant : Prop :=
  (∀ w : Word, decode (.bus 0b00000#5 w) = .ok .rdId) ∧
  ∀ s : State, exec .rdId s = .next { s with rdata := some 0x4D443501#32 }

/-- R133: bits 31:1 read 0. -/
def Obligations.CtrlReadReturnsIe : Prop :=
  (∀ w : Word, decode (.bus 0b00001#5 w) = .ok .rdCtrl) ∧
  ∀ s : State, exec .rdCtrl s = .next { s with rdata := some (if s.ie then 1#32 else 0#32) }

/-- R134 and the fields of R41, with the values of PHASE that R33 lists. -/
def Obligations.StatusReadPacksFields : Prop :=
  (∀ w : Word, decode (.bus 0b00010#5 w) = .ok .rdStatus) ∧
  ∀ s : State, ∃ v : Word, exec .rdStatus s = .next { s with rdata := some v } ∧
    v = s.bcnt.setWidth 32 <<< 16 ||| s.phase.bits.setWidth 32 <<< 8 |||
      s.errcode.setWidth 32 <<< 4 ||| (if s.err then 1#32 else 0#32) <<< 2 |||
      (if s.phase = .done then 2#32 else 0#32) ||| (if s.phase = .run then 1#32 else 0#32) ∧
    v.getLsbD 0 = decide (s.phase = .run) ∧ v.getLsbD 1 = decide (s.phase = .done) ∧
    v.getLsbD 2 = s.err ∧ v.getLsbD 3 = false ∧ v.extractLsb' 4 4 = s.errcode ∧
    (s.phase = .idle → v.extractLsb' 8 2 = 0#2) ∧ (s.phase = .absorb → v.extractLsb' 8 2 = 1#2) ∧
    (s.phase = .run → v.extractLsb' 8 2 = 2#2) ∧ (s.phase = .done → v.extractLsb' 8 2 = 3#2) ∧
    v.extractLsb' 8 2 = s.phase.bits ∧ v.extractLsb' 10 6 = 0#6 ∧ v.extractLsb' 16 7 = s.bcnt ∧
    v.extractLsb' 23 9 = 0#9

/-- R135 and R140: CMD and the reserved indices 7 and 12 to 15 read 0. -/
def Obligations.CmdAndReservedReadZero : Prop :=
  (∀ w : Word, decode (.bus 0b00011#5 w) = .ok .rdCmd ∧ decode (.bus 0b00111#5 w) = .ok .rdRsv7) ∧
  (∀ (k : BitVec 2) (w : Word), decode (.bus (0b011#3 ++ k) w) = .ok (.rdRsvHigh k)) ∧
  ∀ s : State,
    exec .rdCmd s = .next { s with rdata := some 0x00000000#32 } ∧
    exec .rdRsv7 s = .next { s with rdata := some 0x00000000#32 } ∧
    ∀ k, exec (.rdRsvHigh k) s = .next { s with rdata := some 0x00000000#32 }

/-- R136. -/
def Obligations.DataReadReturnsData : Prop :=
  (∀ w : Word, decode (.bus 0b00100#5 w) = .ok .rdData) ∧
  ∀ s : State, exec .rdData s = .next { s with rdata := some s.data }

/-- R137 and R138: the two halves of LEN; no engine step changes LEN between the two reads. -/
def Obligations.LenReadsReturnHalves : Prop :=
  (∀ w : Word, decode (.bus 0b00101#5 w) = .ok .rdLenLo ∧ decode (.bus 0b00110#5 w) = .ok .rdLenHi) ∧
  (∀ s : State,
    exec .rdLenLo s = .next { s with rdata := some (BitVec.ofNat 32 s.len.toNat) } ∧
    exec .rdLenHi s = .next { s with rdata := some (BitVec.ofNat 32 (s.len.toNat / 2 ^ 32)) }) ∧
  ∀ (s s1 t : State) (i : Instr), fetchEngine s = .instr i s1 → exec i s1 = .next t → t.len = s.len

/-- R139: DIGESTk reads Hk in DONE and 0 otherwise. -/
def Obligations.DigestReadOnlyWhenDone : Prop :=
  (∀ (k : BitVec 2) (w : Word), decode (.bus (0b010#3 ++ k) w) = .ok (.rdDigest k)) ∧
  ∀ s : State,
    (s.phase ≠ .done → ∀ k, exec (.rdDigest k) s = .next { s with rdata := some 0x00000000#32 }) ∧
    (s.phase = .done →
      exec (.rdDigest 0#2) s = .next { s with rdata := some s.h0 } ∧
      exec (.rdDigest 1#2) s = .next { s with rdata := some s.h1 } ∧
      exec (.rdDigest 2#2) s = .next { s with rdata := some s.h2 } ∧
      exec (.rdDigest 3#2) s = .next { s with rdata := some s.h3 })

/-- R78: a read of any index changes no state of the engine and asks for no second look: reading the
same index again gives the same state, the value included. -/
def Obligations.ReadsAreIdempotent : Prop :=
  ∀ (idx : BitVec 4) (s : State), ∃ v : Word,
    exec (decodeBus (0b0#1 ++ idx) 0#32) s = .next { s with rdata := some v } ∧
    exec (decodeBus (0b0#1 ++ idx) 0#32) { s with rdata := some v } =
      .next { s with rdata := some v }

/-- R50: what a host read returns, and `irq`, do not depend on A..D, RND, NEXT, MBUF, nor on H0..H3
while PHASE is not DONE. -/
def Obligations.HiddenStateNotReadable : Prop :=
  ∀ (idx : BitVec 4) (s s' : State),
    s.phase = s'.phase → s.bcnt = s'.bcnt → s.len = s'.len → s.data = s'.data → s.ie = s'.ie →
    s.err = s'.err → s.errcode = s'.errcode →
    (s.phase = .done → s.h0 = s'.h0 ∧ s.h1 = s'.h1 ∧ s.h2 = s'.h2 ∧ s.h3 = s'.h3) →
    s.irq = s'.irq ∧
    ∃ v : Word,
      exec (decodeBus (0b0#1 ++ idx) 0#32) s = .next { s with rdata := some v } ∧
      exec (decodeBus (0b0#1 ++ idx) 0#32) s' = .next { s' with rdata := some v }

/-! ### Bus writes -/

/-- R141: IE <- WDATA[0] in every phase, bits 31:1 discarded; IE set while DONE or ERR raises irq at
once. -/
def Obligations.CtrlWriteKeepsBitZero : Prop :=
  (∀ v : Word, decode (.bus 0b10001#5 v) = .ok (.wrCtrl v)) ∧
  ∀ (v : Word) (s : State), ∃ t : State, exec (.wrCtrl v) s = .next t ∧
    t = { s with ie := v.getLsbD 0 } ∧
    (v.getLsbD 0 = true → s.phase = .done ∨ s.err = true → t.irq = true)

/-- R142: DATA <- WDATA in every phase, nothing else. -/
def Obligations.DataWriteStagesWord : Prop :=
  (∀ v : Word, decode (.bus 0b10100#5 v) = .ok (.wrData v)) ∧
  ∀ (v : Word) (s : State), exec (.wrData v) s = .next { s with data := v }

/-- R144 and R145: writes to ID, STATUS, LEN_LO, LEN_HI, DIGEST0..3 and the reserved indices have no
effect. -/
def Obligations.ReadOnlyAndReservedWritesIgnored : Prop :=
  (∀ v : Word,
    decode (.bus 0b10000#5 v) = .ok (.wrRoId v) ∧ decode (.bus 0b10010#5 v) = .ok (.wrRoStatus v) ∧
    decode (.bus 0b10101#5 v) = .ok (.wrRoLenLo v) ∧ decode (.bus 0b10110#5 v) = .ok (.wrRoLenHi v) ∧
    decode (.bus 0b10111#5 v) = .ok (.wrRsv7 v) ∧
    ∀ k : BitVec 2, decode (.bus (0b110#3 ++ k) v) = .ok (.wrRoDigest k v) ∧
      decode (.bus (0b111#3 ++ k) v) = .ok (.wrRsvHigh k v)) ∧
  ∀ (v : Word) (s : State),
    exec (.wrRoId v) s = .next s ∧ exec (.wrRoStatus v) s = .next s ∧
    exec (.wrRoLenLo v) s = .next s ∧ exec (.wrRoLenHi v) s = .next s ∧
    exec (.wrRsv7 v) s = .next s ∧
    ∀ k : BitVec 2, exec (.wrRoDigest k v) s = .next s ∧ exec (.wrRsvHigh k v) s = .next s

/-- R143: a write to CMD runs the command its word encodes, and an illegal word raises ILLEGAL_CMD in
every phase and has no other effect. -/
def Obligations.CmdWriteRunsCommand : Prop :=
  (∀ v : Word, decode (.bus 0b10011#5 v) = .ok (.wrCmd v)) ∧
  (∀ (w : Word) (s : State), decode (.cmd w) = .error .illegalCmd →
    exec (.wrCmd w) s = .next (if s.err then s else { s with err := true, errcode := 1#4 })) ∧
  (∀ (w : Word) (i : Instr) (s : State), decode (.cmd w) = .ok i → exec (.wrCmd w) s = exec i s)

/-- WR_CMD answers a next state with the command's own effect: NOP and INIT in every state, PUSH and FINAL
where the gate accepts them and the block has room (R143, R147 to R150). -/
def Obligations.CmdWriteCompletes : Prop :=
  ∀ s : State,
    exec (.wrCmd 0x00000000#32) s = .next s ∧
    (∃ t, exec (.wrCmd 0x00000001#32) s = .next t ∧ t.phase = .absorb ∧ t.len = 0#64) ∧
    (s.err = false → s.phase = .absorb → s.bcnt.toNat + 4 ≤ 64 →
      ∃ t, exec (.wrCmd 0x00000002#32) s = .next t ∧ t.len = s.len + 32#64) ∧
    (∀ tail : BitVec 2, s.err = false → s.phase = .absorb → s.bcnt.toNat + tail.toNat + 1 ≤ 64 →
      ∃ t, exec (.wrCmd (0#26 ++ tail ++ 3#4)) s = .next t ∧
        t.len = s.len + BitVec.ofNat 64 (8 * tail.toNat) ∧ t.phase = .run)

/-! ### Commands -/

/-- R147: no effect in any phase, whatever ERR holds. -/
def Obligations.NopHasNoEffect : Prop :=
  decode (.cmd 0x00000000#32) = .ok .nop ∧ ∀ s : State, exec .nop s = .next s

/-- R148: INIT loads the IV, clears the session and opens it in every phase, keeps DATA and IE, makes
every MBUF byte 0, lowers irq and hides the digest. -/
def Obligations.InitOpensSession : Prop :=
  decode (.cmd 0x00000001#32) = .ok .init ∧
  ∀ s : State, ∃ m : Memory, ∃ t : State, exec .init s = .next t ∧
    t = { s with
          h0 := 0x67452301#32, h1 := 0xEFCDAB89#32, h2 := 0x98BADCFE#32, h3 := 0x10325476#32
          a := 0#32, b := 0#32, c := 0#32, d := 0#32, rnd := 0#7, nxt := 0#2
          mbuf := m, bcnt := 0#7, len := 0#64, err := false, errcode := 0#4, phase := .absorb } ∧
    (∀ p, Memory.read m p = 0x00#8) ∧ t.irq = false ∧ ∀ k, t.digestWord k = 0#32

/-- R149: an accepted PUSH stores the four lanes of DATA at MBUF[BCNT..BCNT+3], adds 32 to LEN and 4 to
BCNT, and starts the block when it fills; every other MBUF byte is unchanged. A PUSH the gate does not
accept (R146) is silent while ERR = 1, and otherwise raises BUSY in RUN and SEQUENCE in IDLE and DONE. -/
def Obligations.PushAbsorbsFourBytes : Prop :=
  decode (.cmd 0x00000002#32) = .ok .push ∧
  (∀ s : State,
    (s.err = true → exec .push s = .next s) ∧
    (s.err = false → s.phase = .run → exec .push s = .next { s with err := true, errcode := 2#4 }) ∧
    (s.err = false → s.phase = .idle ∨ s.phase = .done →
      exec .push s = .next { s with err := true, errcode := 3#4 })) ∧
  ∀ s : State, s.err = false → s.phase = .absorb → s.bcnt.toNat + 4 ≤ 64 →
    ∃ m : Memory,
      exec .push s = .next
        (if s.bcnt.toNat + 4 = 64 then
          { s with
            mbuf := m, len := s.len + 32#64, bcnt := 64#7
            a := s.h0, b := s.h1, c := s.h2, d := s.h3, rnd := 0#7, nxt := 0#2, phase := .run }
        else { s with mbuf := m, len := s.len + 32#64, bcnt := s.bcnt + 4#7 }) ∧
      (∀ j, j < 4 → Memory.read m (s.bcnt.toNat + j) = s.data.extractLsb' (8 * j) 8) ∧
      ∀ p, p < s.bcnt.toNat ∨ s.bcnt.toNat + 4 ≤ p → Memory.read m p = Memory.read s.mbuf p

/-- R150 with R172: an accepted FINAL stores the tail lanes, the terminator, the zero fill and, when
b = BCNT + t is at most 55, the length; adds 8t to LEN, fills BCNT and starts the block, with NEXT LAST
or PAD2. The message bytes before BCNT are unchanged. A FINAL the gate does not accept (R146) is silent
while ERR = 1, and otherwise raises BUSY in RUN and SEQUENCE in IDLE and DONE. -/
def Obligations.FinalPadsAndStartsBlock : Prop :=
  (∀ t : BitVec 2, decode (.cmd (0#26 ++ t ++ 0x3#4)) = .ok (.final t)) ∧
  (∀ (s : State) (t : BitVec 2),
    (s.err = true → exec (.final t) s = .next s) ∧
    (s.err = false → s.phase = .run → exec (.final t) s = .next { s with err := true, errcode := 2#4 }) ∧
    (s.err = false → s.phase = .idle ∨ s.phase = .done →
      exec (.final t) s = .next { s with err := true, errcode := 3#4 })) ∧
  ∀ (s : State) (t : BitVec 2) (b : Nat) (len' : BitVec 64),
    s.err = false → s.phase = .absorb → b = s.bcnt.toNat + t.toNat → b < 64 →
    len' = s.len + BitVec.ofNat 64 (8 * t.toNat) →
    ∃ m : Memory,
      exec (.final t) s = .next
        { s with
          mbuf := m, len := len', bcnt := 64#7
          a := s.h0, b := s.h1, c := s.h2, d := s.h3
          rnd := 0#7, nxt := if b ≤ 55 then 2#2 else 1#2, phase := .run } ∧
      (∀ p, p < s.bcnt.toNat ∨ 64 ≤ p → Memory.read m p = Memory.read s.mbuf p) ∧
      (∀ j, j < t.toNat → Memory.read m (s.bcnt.toNat + j) = s.data.extractLsb' (8 * j) 8) ∧
      Memory.read m b = 0x80#8 ∧
      (b ≤ 55 →
        (∀ p, b < p → p ≤ 55 → Memory.read m p = 0x00#8) ∧
        ∀ j, j < 8 → Memory.read m (56 + j) = len'.extractLsb' (8 * j) 8) ∧
      (56 ≤ b → ∀ p, b < p → p ≤ 63 → Memory.read m p = 0x00#8)

/-- R304 and R305: PUSH and FINAL raise BUSY in RUN and SEQUENCE in IDLE and DONE while ERR = 0, and have
no other effect. -/
def Obligations.BusyAndSequenceErrors : Prop :=
  ∀ (i : Instr) (s : State), (i = .push ∨ ∃ t, i = .final t) → s.err = false →
    (s.phase = .run → exec i s = .next { s with err := true, errcode := 2#4 }) ∧
    (s.phase = .idle ∨ s.phase = .done → exec i s = .next { s with err := true, errcode := 3#4 })

/-- R306: one CMD write reports at most one error, in the order illegal word, NOP or INIT, lock, BUSY,
SEQUENCE, accepted. The accepted PUSH and FINAL are taken where their bytes exist in MBUF. -/
def Obligations.CmdErrorPriority : Prop :=
  ∀ (w : Word) (s : State),
    (decode (.cmd w) = .error .illegalCmd →
      exec (.wrCmd w) s = .next (if s.err then s else { s with err := true, errcode := 1#4 })) ∧
    (decode (.cmd w) = .ok .nop → ∃ t, exec (.wrCmd w) s = .next t ∧ t.err = s.err ∧
      t.errcode = s.errcode) ∧
    (decode (.cmd w) = .ok .init → ∃ t, exec (.wrCmd w) s = .next t ∧ t.err = false ∧
      t.errcode = 0#4) ∧
    (decode (.cmd w) = .ok .push ∨ (∃ t, decode (.cmd w) = .ok (.final t)) →
      (s.err = true → exec (.wrCmd w) s = .next s) ∧
      (s.err = false → s.phase = .run →
        exec (.wrCmd w) s = .next { s with err := true, errcode := 2#4 }) ∧
      (s.err = false → s.phase = .idle ∨ s.phase = .done →
        exec (.wrCmd w) s = .next { s with err := true, errcode := 3#4 }) ∧
      (s.err = false → s.phase = .absorb → s.bcnt.toNat ≤ 60 →
        ∃ t, exec (.wrCmd w) s = .next t ∧ t.err = false ∧ t.errcode = s.errcode ∧
          s.bcnt.toNat < t.bcnt.toNat))

/-- The model's own stop (log 7): PUSH and FINAL would store to MBUF addresses above 63, which R70 does
not give, in ABSORB states that no run reaches (R37). -/
def Obligations.StoreOutsideMbufFaults : Prop :=
  ∀ s : State, s.err = false → s.phase = .absorb →
    (60 < s.bcnt.toNat → exec .push s = .fault .mbufOutOfRange) ∧
    ∀ t : BitVec 2, 63 < s.bcnt.toNat + t.toNat → exec (.final t) s = .fault .mbufOutOfRange

/-! ### Mixer and engine -/

/-- R203: the barrel shifter is a rotation of the 32 bits; by 0 it is the identity. -/
def Obligations.BarrelShifterRotates : Prop :=
  ∀ (x : Word) (n : BitVec 5),
    rotl32 x 0#5 = x ∧
    (1 ≤ n.toNat → rotl32 x n = BitVec.ofNat 32 (x.toNat * 2 ^ n.toNat) |||
      BitVec.ofNat 32 (x.toNat / 2 ^ (32 - n.toNat))) ∧
    ∀ k, k < 32 → (rotl32 x n).getLsbD k = x.getLsbD ((k + 32 - n.toNat) % 32)

/-- R200, bit by bit: F selects c or d by b, G selects b or c by d, H is the odd parity, and I is
c XOR (b OR NOT d). -/
def Obligations.FunctionMuxTruthTable : Prop :=
  ∀ (b c d : Word) (k : Nat), k < 32 →
    (fmux 0#2 b c d).getLsbD k = (if b.getLsbD k then c.getLsbD k else d.getLsbD k) ∧
    (fmux 1#2 b c d).getLsbD k = (if d.getLsbD k then b.getLsbD k else c.getLsbD k) ∧
    (fmux 2#2 b c d).getLsbD k = xor (xor (b.getLsbD k) (c.getLsbD k)) (d.getLsbD k) ∧
    (fmux 3#2 b c d).getLsbD k = xor (c.getLsbD k) (b.getLsbD k || !d.getLsbD k)

/-- R202: the schedule's table, and that every message word is read exactly once per quarter. -/
def Obligations.ScheduleTable : Prop :=
  (List.finRange 16).map (fun j => (gIndex (BitVec.ofNat 6 j)).toNat) =
    [0, 1, 2, 3, 4, 5, 6, 7, 8, 9, 10, 11, 12, 13, 14, 15] ∧
  (List.finRange 16).map (fun j => (gIndex (BitVec.ofNat 6 (16 + j))).toNat) =
    [1, 6, 11, 0, 5, 10, 15, 4, 9, 14, 3, 8, 13, 2, 7, 12] ∧
  (List.finRange 16).map (fun j => (gIndex (BitVec.ofNat 6 (32 + j))).toNat) =
    [5, 8, 11, 14, 1, 4, 7, 10, 13, 0, 3, 6, 9, 12, 15, 2] ∧
  (List.finRange 16).map (fun j => (gIndex (BitVec.ofNat 6 (48 + j))).toNat) =
    [0, 7, 14, 5, 12, 3, 10, 1, 8, 15, 6, 13, 4, 11, 2, 9] ∧
  ∀ (q : BitVec 2) (g : BitVec 4), ∃ j : BitVec 4,
    gIndex (q ++ j) = g ∧ ∀ j' : BitVec 4, gIndex (q ++ j') = g → j' = j

/-- R210 with R204: ROUND_F. The whole next state is given. -/
def Obligations.RoundFStep : Prop :=
  ∀ (n : BitVec 2) (j : BitVec 4) (s : State),
    decode (.sel (n ++ 0b000#3 ++ j)) = .ok (.roundF n j) ∧
    (n ≠ 3#2 →
      exec (.roundF n j) s = .next
        { s with
          a := s.d, c := s.b, d := s.c
          b := s.b + rotl32
            (((s.b &&& s.c) ||| (~~~s.b &&& s.d)) + s.a + kWord (BitVec.ofNat 6 j.toNat) +
              Memory.word s.mbuf j)
            ([7#5, 12#5, 17#5, 22#5].getD (j.toNat % 4) 0#5)
          rnd := BitVec.ofNat 7 (j.toNat + 1) })

/-- R211 with R204: ROUND_G. The whole next state is given. -/
def Obligations.RoundGStep : Prop :=
  ∀ (n : BitVec 2) (j : BitVec 4) (s : State),
    decode (.sel (n ++ 0b001#3 ++ j)) = .ok (.roundG n j) ∧
    (n ≠ 3#2 →
      exec (.roundG n j) s = .next
        { s with
          a := s.d, c := s.b, d := s.c
          b := s.b + rotl32
            (((s.d &&& s.b) ||| (~~~s.d &&& s.c)) + s.a + kWord (BitVec.ofNat 6 (16 + j.toNat)) +
              Memory.word s.mbuf (BitVec.ofNat 4 ((5 * (16 + j.toNat) + 1) % 16)))
            ([5#5, 9#5, 14#5, 20#5].getD (j.toNat % 4) 0#5)
          rnd := BitVec.ofNat 7 (16 + j.toNat + 1) })

/-- R212 with R204: ROUND_H. The whole next state is given. -/
def Obligations.RoundHStep : Prop :=
  ∀ (n : BitVec 2) (j : BitVec 4) (s : State),
    decode (.sel (n ++ 0b010#3 ++ j)) = .ok (.roundH n j) ∧
    (n ≠ 3#2 →
      exec (.roundH n j) s = .next
        { s with
          a := s.d, c := s.b, d := s.c
          b := s.b + rotl32
            ((s.b ^^^ s.c ^^^ s.d) + s.a + kWord (BitVec.ofNat 6 (32 + j.toNat)) +
              Memory.word s.mbuf (BitVec.ofNat 4 ((3 * (32 + j.toNat) + 5) % 16)))
            ([4#5, 11#5, 16#5, 23#5].getD (j.toNat % 4) 0#5)
          rnd := BitVec.ofNat 7 (32 + j.toNat + 1) })

/-- R213 with R204: ROUND_I. The whole next state is given; round 63 leaves RND = 64. -/
def Obligations.RoundIStep : Prop :=
  ∀ (n : BitVec 2) (j : BitVec 4) (s : State),
    decode (.sel (n ++ 0b011#3 ++ j)) = .ok (.roundI n j) ∧
    (n ≠ 3#2 →
      exec (.roundI n j) s = .next
        { s with
          a := s.d, c := s.b, d := s.c
          b := s.b + rotl32
            ((s.c ^^^ (s.b ||| ~~~s.d)) + s.a + kWord (BitVec.ofNat 6 (48 + j.toNat)) +
              Memory.word s.mbuf (BitVec.ofNat 4 ((7 * (48 + j.toNat)) % 16)))
            ([6#5, 10#5, 15#5, 21#5].getD (j.toNat % 4) 0#5)
          rnd := BitVec.ofNat 7 (48 + j.toNat + 1) })

/-- R214 with R209: ACCUM_CONT. The whole next state is given; MBUF is not cleared. -/
def Obligations.AccumContReturnsToAbsorb : Prop :=
  decode (.sel 0b001000000#9) = .ok .accumCont ∧
  ∀ s : State, exec .accumCont s = .next
    { s with
      h0 := s.h0 + s.a, h1 := s.h1 + s.b, h2 := s.h2 + s.c, h3 := s.h3 + s.d
      rnd := 0#7, bcnt := 0#7, phase := .absorb }

/-- R215 with R173: ACCUM_PAD2 builds the padding block in MBUF[0..63] and starts it from the new
chaining words. -/
def Obligations.AccumPad2BuildsPaddingBlock : Prop :=
  decode (.sel 0b011000000#9) = .ok .accumPad2 ∧
  ∀ s : State, ∃ m : Memory,
    exec .accumPad2 s = .next
      { s with
        h0 := s.h0 + s.a, h1 := s.h1 + s.b, h2 := s.h2 + s.c, h3 := s.h3 + s.d
        a := s.h0 + s.a, b := s.h1 + s.b, c := s.h2 + s.c, d := s.h3 + s.d
        mbuf := m, rnd := 0#7, nxt := 2#2 } ∧
    (∀ p, p ≤ 55 → Memory.read m p = 0x00#8) ∧
    (∀ j, j < 8 → Memory.read m (56 + j) = s.len.extractLsb' (8 * j) 8) ∧
    ∀ p, 64 ≤ p → Memory.read m p = Memory.read s.mbuf p

/-- R216 with R209: ACCUM_LAST. The whole next state is given. -/
def Obligations.AccumLastReachesDone : Prop :=
  decode (.sel 0b101000000#9) = .ok .accumLast ∧
  ∀ s : State, exec .accumLast s = .next
    { s with
      h0 := s.h0 + s.a, h1 := s.h1 + s.b, h2 := s.h2 + s.c, h3 := s.h3 + s.d
      rnd := 0#7, phase := .done }

/-- R73: byte j of Word(g) is MBUF[4g + j], for every word of the block; and R74: the length written as
LE64 at MBUF[56..63] is read back as Word(14) = LEN[31:0] and Word(15) = LEN[63:32]. -/
def Obligations.LengthFieldIsLittleEndian : Prop :=
  (∀ (m : Memory) (g : BitVec 4) (j : Nat), j < 4 →
    (Memory.word m g).extractLsb' (8 * j) 8 = Memory.read m (4 * g.toNat + j)) ∧
  ∀ (m : Memory) (v : BitVec 64),
    Memory.word (Memory.writeBytes m 56 (le64 v)) 14#4 = BitVec.ofNat 32 v.toNat ∧
    Memory.word (Memory.writeBytes m 56 (le64 v)) 15#4 = BitVec.ofNat 32 (v.toNat / 2 ^ 32) ∧
    ∀ j, j < 8 → (le64 v).getD j 0x00#8 = BitVec.ofNat 8 (v.toNat / 2 ^ (8 * j))

/-- R218: from a block start with no host turn before it ends, 64 rounds and one accumulation compress
the block in 65 steps; NEXT decides what follows, and a padded second block takes 65 steps more. That a
step with no turn left is the engine's is the model's choice (log 1). -/
def Obligations.BlockTakesSixtyFiveSteps : Prop :=
  ∀ s : State, s.phase = .run → s.rnd = 0#7 → s.turns = [] →
    (s.nxt ≠ 3#2 → steps 64 s = .next
      { s.setWork (rounds (Memory.word s.mbuf) 64 s.work) with rnd := 64#7 }) ∧
    (s.nxt = 0#2 → s.work = s.chainQuad → ∃ t, steps 65 s = .next t ∧ t.phase = .absorb ∧
      t.chainQuad = compress (Memory.word s.mbuf) s.chainQuad) ∧
    (s.nxt = 2#2 → s.work = s.chainQuad → ∃ t, steps 65 s = .next t ∧ t.phase = .done ∧
      t.chainQuad = compress (Memory.word s.mbuf) s.chainQuad) ∧
    (s.nxt = 1#2 → s.work = s.chainQuad → ∃ t u,
      steps 65 s = .next t ∧ t.phase = .run ∧ t.nxt = 2#2 ∧ t.rnd = 0#7 ∧
      t.chainQuad = compress (Memory.word s.mbuf) s.chainQuad ∧ t.work = t.chainQuad ∧
      steps 130 s = .next u ∧ u.phase = .done ∧
      u.chainQuad = compress (Memory.word t.mbuf) t.chainQuad)

/-- R217: outside RUN the engine has no step, and in RUN exactly the one that SEL selects; an engine turn
and an empty list of turns both give it its step. -/
def Obligations.EngineStepsOnlyInRun : Prop :=
  ∀ (s : State) (ts : List Turn),
    (s.phase ≠ .run →
      step { s with turns := .engine :: ts } = .next { s with turns := ts } ∧
      step { s with turns := [] } = .next { s with turns := [] }) ∧
    ∀ i : Instr, s.phase = .run → decode (.sel (s.nxt ++ s.rnd)) = .ok i →
      step { s with turns := .engine :: ts } = exec i { s with turns := ts } ∧
      step { s with turns := [] } = exec i { s with turns := [] }

/-- R109: a state with RND 65 to 127 or NEXT = 3 in RUN makes the engine's step fault; so do the four
rounds when their selector's NEXT field is 3. -/
def Obligations.UnreachableSelectorFaults : Prop :=
  (∀ (s : State) (ts : List Turn), s.phase = .run → (65 ≤ s.rnd.toNat ∨ s.nxt = 3#2) →
    step { s with turns := .engine :: ts } = .fault .unreachableSelector ∧
    step { s with turns := [] } = .fault .unreachableSelector) ∧
  ∀ (s : State) (j : BitVec 4),
    exec (.roundF 3#2 j) s = .fault .unreachableSelector ∧
    exec (.roundG 3#2 j) s = .fault .unreachableSelector ∧
    exec (.roundH 3#2 j) s = .fault .unreachableSelector ∧
    exec (.roundI 3#2 j) s = .fault .unreachableSelector

/-- R310: an engine step raises no error; and LEN, DATA and IE are none of the registers that R204 and R214
to R216 let it write. That the turns and the answer stay is the model's choice (logs 1 and 2). -/
def Obligations.EngineStepsRaiseNothing : Prop :=
  ∀ (s s1 t : State) (i : Instr), fetchEngine s = .instr i s1 → exec i s1 = .next t →
    t.err = s.err ∧ t.errcode = s.errcode ∧ t.len = s.len ∧ t.data = s.data ∧ t.ie = s.ie ∧
    t.turns = s.turns ∧ t.rdata = s.rdata

/-- R217: no bus operation other than one that starts INIT changes A, B, C, D, RND, NEXT, H, MBUF, or
PHASE, BCNT and LEN, while PHASE = RUN; and each of them completes. -/
def Obligations.HostCannotDisturbRun : Prop :=
  ∀ (s : State) (req : BitVec 5) (w : Word) (ts : List Turn),
    s.phase = .run → s.turns = .bus req w :: ts → commandOf (decodeBus req w) ≠ some .init →
    ∃ t, step s = .next t ∧ t.turns = ts ∧
      t.work = s.work ∧ t.chainQuad = s.chainQuad ∧ t.rnd = s.rnd ∧ t.nxt = s.nxt ∧
      t.mbuf = s.mbuf ∧ t.phase = .run ∧ t.bcnt = s.bcnt ∧ t.len = s.len

/-! ### Serializer, interrupt, reset -/

/-- R250 and R251: d[4k+j] is byte j of Hk, and in DONE byte lane j of what DIGESTk reads. -/
def Obligations.DigestIsLittleEndian : Prop :=
  ∀ (s : State) (k : BitVec 2) (j : Nat), j < 4 →
    s.digest.length = 16 ∧
    s.digest.getD (4 * k.toNat + j) 0x00#8 =
      BitVec.ofNat 8 (([s.h0, s.h1, s.h2, s.h3].getD k.toNat 0#32).toNat / 2 ^ (8 * j)) ∧
    (s.phase = .done → ∃ v : Word, exec (.rdDigest k) s = .next { s with rdata := some v } ∧
      v.extractLsb' (8 * j) 8 = s.digest.getD (4 * k.toNat + j) 0x00#8)

/-- R311: irq = IE AND (DONE OR ERR), a level; INIT, reset and IE = 0 lower it, and a read of any index
leaves it. -/
def Obligations.IrqIsLevel : Prop :=
  (∀ s : State, s.irq = true ↔ s.ie = true ∧ (s.phase = .done ∨ s.err = true)) ∧
  (∀ s t : State, exec .init s = .next t → t.irq = false) ∧
  (∀ (s t : State) (v : Word), v.getLsbD 0 = false → exec (.wrCtrl v) s = .next t → t.irq = false) ∧
  (∀ (s : State) (ts : List Turn), ∃ t, step { s with turns := .reset :: ts } = .next t ∧
    t.irq = false) ∧
  ∀ (idx : BitVec 4) (s t : State), exec (decodeBus (0b0#1 ++ idx) 0#32) s = .next t → t.irq = s.irq

/-- R340: the state after reset, element by element, and what it reads as. -/
def Obligations.ResetState : Prop :=
  let s := State.reset
  s.h0 = 0#32 ∧ s.h1 = 0#32 ∧ s.h2 = 0#32 ∧ s.h3 = 0#32 ∧
  s.a = 0#32 ∧ s.b = 0#32 ∧ s.c = 0#32 ∧ s.d = 0#32 ∧
  s.phase = .idle ∧ s.rnd = 0#7 ∧ s.nxt = 0#2 ∧ (∀ p, Memory.read s.mbuf p = 0x00#8) ∧
  s.bcnt = 0#7 ∧ s.len = 0#64 ∧ s.data = 0#32 ∧ s.ie = false ∧ s.err = false ∧ s.errcode = 0#4 ∧
  exec .rdStatus s = .next { s with rdata := some 0x00000000#32 } ∧ s.irq = false ∧
  (∀ k, exec (.rdDigest k) s = .next { s with rdata := some 0x00000000#32 }) ∧
  exec .rdId s = .next { s with rdata := some 0x4D443501#32 }

/-- R341: a reset turn leads from any state, RUN included, to the state of R340; only the turns that
follow it are kept (log 1). -/
def Obligations.ResetTurnResets : Prop :=
  ∀ (s : State) (ts : List Turn), s.turns = .reset :: ts →
    step s = .next { State.reset with turns := ts }

/-! ### Step, invariants, whole-machine rules -/

/-- A step runs the instruction that the turn's encoding decodes to: a bus request with its turn spent
and no answer yet, a command word through CMD, or the engine's selector in RUN. -/
def Obligations.StepRunsDecodedInstruction : Prop :=
  (∀ (s : State) (req : BitVec 5) (w : Word) (ts : List Turn) (i : Instr),
    s.turns = .bus req w :: ts → decode (.bus req w) = .ok i →
    step s = exec i { s with turns := ts, rdata := none }) ∧
  (∀ (s : State) (w : Word) (ts : List Turn) (i : Instr),
    s.turns = .bus 0b10011#5 w :: ts → decode (.cmd w) = .ok i →
    step s = exec i { s with turns := ts, rdata := none }) ∧
  ∀ (s : State) (ts : List Turn) (i : Instr),
    s.turns = .engine :: ts → s.phase = .run → decode (.sel (s.nxt ++ s.rnd)) = .ok i →
    step s = exec i { s with turns := ts }

/-- R76 and R82: a full aligned word of the platform's bus at MD5_BASE + 4 * IDX is the bus operation on
IDX; R77: a narrower or misaligned access that touches the window is refused. That every other access with
a byte in the window, a wider one too, is refused with it is the model's choice (log 8). -/
def Obligations.PlatformAccessReachesWindow : Prop :=
  Config.md5Base % 64 = 0 ∧
  (∀ (s : State) (idx : BitVec 4) (ts : List Turn),
    s.turns = .access 4 (Config.md5Base + 4 * idx.toNat) none :: ts →
    step s = step { s with turns := .bus (0b0#1 ++ idx) 0#32 :: ts }) ∧
  (∀ (s : State) (idx : BitVec 4) (v : Word) (ts : List Turn),
    s.turns = .access 4 (Config.md5Base + 4 * idx.toNat) (some v) :: ts →
    step s = step { s with turns := .bus (0b1#1 ++ idx) v :: ts }) ∧
  ∀ (s : State) (size addr : Nat) (write : Option Word) (ts : List Turn),
    s.turns = .access size addr write :: ts →
    addr < Config.md5Base + 64 → Config.md5Base < addr + size → ¬ (size = 4 ∧ addr % 4 = 0) →
    step s = .refused .narrowOrMisaligned

/-- The reset state meets the invariant (R51, R340). -/
def Obligations.ResetMeetsInvariant : Prop := EngineInv State.reset

/-- Every step keeps the invariant of R51, from every state that meets it. -/
def Obligations.StepKeepsInvariant : Prop :=
  ∀ s t : State, EngineInv s → step s = .next t → EngineInv t

/-- From a state that meets the invariant no step faults, and with turns at the engine's port every step
answers a next state: the engine cannot hang or stop (R310, R351). That a turn without an enabled step is
an idle step (log 1), and that only turns away from the port can be refused (log 8), are the model's choices. -/
def Obligations.NoStepFaultsUnderInvariant : Prop :=
  ∀ s : State, EngineInv s →
    (∀ f, step s ≠ .fault f) ∧
    ((∀ x ∈ s.turns, x.atPort = true) → ∃ t, step s = .next t)

/-- R302, R308 and R309: once ERR = 1 no step other than INIT and reset clears it or changes the code, and
while it is 1 no step changes LEN; INIT and a reset turn clear both, a write to STATUS does not. -/
def Obligations.ErrorIsSticky : Prop :=
  (∀ s t : State, s.err = true → step s = .next t → (∀ u, fetch s ≠ .reset u) →
    (∀ i u, fetch s = .instr i u → commandOf i ≠ some .init) →
    t.err = true ∧ t.errcode = s.errcode ∧ t.len = s.len) ∧
  ∀ s : State,
    (∃ t, exec .init s = .next t ∧ t.err = false ∧ t.errcode = 0#4) ∧
    (∀ ts, ∃ t, step { s with turns := .reset :: ts } = .next t ∧ t.err = false ∧ t.errcode = 0#4) ∧
    ∀ v, ∃ t, exec (.wrRoStatus v) s = .next t ∧ t.err = s.err ∧ t.errcode = s.errcode

/-- R253: in DONE no step other than INIT and reset changes H0..H3 or leaves DONE. -/
def Obligations.DigestStableInDone : Prop :=
  ∀ s t : State, s.phase = .done → step s = .next t → (∀ u, fetch s ≠ .reset u) →
    (∀ i u, fetch s = .instr i u → commandOf i ≠ some .init) →
    t.phase = .done ∧ t.h0 = s.h0 ∧ t.h1 = s.h1 ∧ t.h2 = s.h2 ∧ t.h3 = s.h3

/-- R344: INIT leaves DATA and IE, and the state it leaves depends on nothing of an earlier session: two
states that agree on DATA and IE, and on the model's own turns and answer, become equal. -/
def Obligations.InitForgetsEarlierSession : Prop :=
  ∀ s s' : State, s.data = s'.data → s.ie = s'.ie → s.turns = s'.turns → s.rdata = s'.rdata →
    ∃ t, exec .init s = .next t ∧ exec .init s' = .next t ∧ t.data = s.data ∧ t.ie = s.ie

/-- R170: the padded message has length ceil((n+9)/64)*64, starts with the message, then 0x80, then zeros,
and ends with the bit length in its last 8 bytes. -/
def Obligations.PaddedMessageShape : Prop :=
  ∀ m : List Byte,
    (padMessage m).length = (m.length + 9 + 63) / 64 * 64 ∧
    (∀ p, p < m.length → (padMessage m).getD p 0x00#8 = m.getD p 0x00#8) ∧
    (padMessage m).getD m.length 0x00#8 = 0x80#8 ∧
    (∀ p, m.length < p → p < (padMessage m).length - 8 → (padMessage m).getD p 0x00#8 = 0x00#8) ∧
    ∀ j, j < 8 → (padMessage m).getD ((padMessage m).length - 8 + j) 0x00#8 =
      (BitVec.ofNat 64 (8 * m.length)).extractLsb' (8 * j) 8

/-- R131: INIT opens the session of the empty message, from every state. -/
def Obligations.InitStartsEmptySession : Prop :=
  ∀ s : State, ∃ t, exec .init s = .next t ∧ Session t []

/-- R71, R171, R175: along every step that runs an instruction, host or engine, the state stays in the
session of the bytes absorbed so far: LEN counts them, MBUF holds the current block of the message or of
its padded form, and the chaining and working words are those of the blocks and rounds done. -/
def Obligations.StepTracksSessionMessage : Prop :=
  ∀ (s s1 t : State) (i : Instr) (m : List Byte),
    Session s m → fetch s = .instr i s1 → exec i s1 = .next t → Session t (messageAfter i s1 m)

/-- R175, R218, R250: a FINAL that a session accepts, followed by 65 or 130 undisturbed engine steps,
leaves in DONE the digest of the whole message, tail included, and the number of steps is 65 for each
block that the padded message has beyond those compressed before. That a step with no turn left is the
engine's is the model's choice (log 1). -/
def Obligations.FinalYieldsMessageDigest : Prop :=
  ∀ (s : State) (m : List Byte) (t : BitVec 2),
    Session s m → s.phase = .absorb → s.err = false → s.turns = [] →
    ∃ u v : State, exec (.final t) s = .next u ∧
      steps (65 * ((padMessage (m ++ dataLanes s.data t.toNat)).length / 64 - m.length / 64)) u =
        .next v ∧
      v.phase = .done ∧ v.digest = md5 (m ++ dataLanes s.data t.toNat)

/-- R131, R250, R251: when a session reaches DONE, byte lane j of what DIGESTk reads is byte 4k + j of the
digest of the session's message, and LEN is 8 times the message's length modulo 2^64. -/
def Obligations.DoneSessionReadsDigest : Prop :=
  ∀ (s : State) (m : List Byte), Session s m → s.phase = .done →
    s.len.toNat = 8 * m.length % 2 ^ 64 ∧
    ∀ k : BitVec 2, ∃ v : Word, exec (.rdDigest k) s = .next { s with rdata := some v } ∧
      ∀ j, j < 4 → v.extractLsb' (8 * j) 8 = (md5 m).getD (4 * k.toNat + j) 0x00#8

/-- R205, R206 and R207: the contents of the ROMs, word by word: the 64 round constants, the 64 rotation
amounts (four of a quarter, repeated four times) and the four initial chaining words. -/
def Obligations.RomContents : Prop :=
  (List.finRange 16).map (fun j => kWord (BitVec.ofNat 6 j)) =
    [0xD76AA478#32, 0xE8C7B756#32, 0x242070DB#32, 0xC1BDCEEE#32,
     0xF57C0FAF#32, 0x4787C62A#32, 0xA8304613#32, 0xFD469501#32,
     0x698098D8#32, 0x8B44F7AF#32, 0xFFFF5BB1#32, 0x895CD7BE#32,
     0x6B901122#32, 0xFD987193#32, 0xA679438E#32, 0x49B40821#32] ∧
  (List.finRange 16).map (fun j => kWord (BitVec.ofNat 6 (16 + j))) =
    [0xF61E2562#32, 0xC040B340#32, 0x265E5A51#32, 0xE9B6C7AA#32,
     0xD62F105D#32, 0x02441453#32, 0xD8A1E681#32, 0xE7D3FBC8#32,
     0x21E1CDE6#32, 0xC33707D6#32, 0xF4D50D87#32, 0x455A14ED#32,
     0xA9E3E905#32, 0xFCEFA3F8#32, 0x676F02D9#32, 0x8D2A4C8A#32] ∧
  (List.finRange 16).map (fun j => kWord (BitVec.ofNat 6 (32 + j))) =
    [0xFFFA3942#32, 0x8771F681#32, 0x6D9D6122#32, 0xFDE5380C#32,
     0xA4BEEA44#32, 0x4BDECFA9#32, 0xF6BB4B60#32, 0xBEBFBC70#32,
     0x289B7EC6#32, 0xEAA127FA#32, 0xD4EF3085#32, 0x04881D05#32,
     0xD9D4D039#32, 0xE6DB99E5#32, 0x1FA27CF8#32, 0xC4AC5665#32] ∧
  (List.finRange 16).map (fun j => kWord (BitVec.ofNat 6 (48 + j))) =
    [0xF4292244#32, 0x432AFF97#32, 0xAB9423A7#32, 0xFC93A039#32,
     0x655B59C3#32, 0x8F0CCC92#32, 0xFFEFF47D#32, 0x85845DD1#32,
     0x6FA87E4F#32, 0xFE2CE6E0#32, 0xA3014314#32, 0x4E0811A1#32,
     0xF7537E82#32, 0xBD3AF235#32, 0x2AD7D2BB#32, 0xEB86D391#32] ∧
  (List.finRange 16).map (fun j => (sAmount (BitVec.ofNat 6 j)).toNat) =
    [7, 12, 17, 22, 7, 12, 17, 22, 7, 12, 17, 22, 7, 12, 17, 22] ∧
  (List.finRange 16).map (fun j => (sAmount (BitVec.ofNat 6 (16 + j))).toNat) =
    [5, 9, 14, 20, 5, 9, 14, 20, 5, 9, 14, 20, 5, 9, 14, 20] ∧
  (List.finRange 16).map (fun j => (sAmount (BitVec.ofNat 6 (32 + j))).toNat) =
    [4, 11, 16, 23, 4, 11, 16, 23, 4, 11, 16, 23, 4, 11, 16, 23] ∧
  (List.finRange 16).map (fun j => (sAmount (BitVec.ofNat 6 (48 + j))).toNat) =
    [6, 10, 15, 21, 6, 10, 15, 21, 6, 10, 15, 21, 6, 10, 15, 21] ∧
  iv0 = 0x67452301#32 ∧ iv1 = 0xEFCDAB89#32 ∧ iv2 = 0x98BADCFE#32 ∧ iv3 = 0x10325476#32
end

