-- ==== Sys2Proof/Laws/Decode.lean ====
section
/-! SUPPORT. The shape of what the CMD decoder accepts (R104). -/

namespace Sys2Proof

/-- A word from its three CMD fields (R102). -/
theorem cmdFields (w : Word) :
    w = w.extractLsb' 6 26 ++ w.extractLsb' 4 2 ++ w.extractLsb' 0 4 := by
  apply BitVec.eq_of_getLsbD_eq
  intro i hi
  simp only [BitVec.getLsbD_append, BitVec.getLsbD_extractLsb']
  by_cases h4 : i < 4
  · simp [h4]
  · by_cases h6 : i < 6
    · have : i - 4 < 2 := by omega
      simp [h4, this, show 4 + (i - 4) = i by omega]
    · have h2 : ¬ i - 4 < 2 := by omega
      have h3 : i - 4 - 2 < 26 := by omega
      simp [h4, h2, h3, show 6 + (i - 4 - 2) = i by omega]

/-- The CMD word of a command (R103, R105). -/
def Command.word : Command → Word
  | .nop => 0x00000000#32
  | .init => 0x00000001#32
  | .push => 0x00000002#32
  | .final t => 0#26 ++ t ++ 3#4

theorem decodeCmd_word (c : Command) : decodeCmd c.word = some c := by
  cases c with
  | nop => decide
  | init => decide
  | push => decide
  | final t => revert t; decide

/-- A legal word is the word of its command: the decoder reads every bit. -/
theorem word_of_decodeCmd {w : Word} {c : Command} (h : decodeCmd w = some c) : w = c.word := by
  have hw := cmdFields w
  unfold decodeCmd at h
  split at h
  · rename_i h26
    split at h
    · rename_i hop; cases h; rw [h26, hop] at hw; exact hw
    · split at h
      · rename_i htail
        split at h
        · rename_i hop; cases h; rw [h26, htail, hop] at hw; exact hw
        · split at h
          · rename_i hop; cases h; rw [h26, htail, hop] at hw; exact hw
          · split at h
            · rename_i hop; cases h; rw [h26, htail, hop] at hw; exact hw
            · cases h
      · cases h
  · cases h

theorem decodeCmd_eq_some_iff {w : Word} {c : Command} : decodeCmd w = some c ↔ w = c.word :=
  ⟨word_of_decodeCmd, fun h => h ▸ decodeCmd_word c⟩

end Sys2Proof
end

