-- ==== Sys2Proof/Laws/State.lean ====
section
/-! SUPPORT. One lemma per field per named update of State, true by definition, and one per error
operation, so that later proofs do not unfold them. -/

namespace Sys2Proof.Machine

@[simp] theorem answer_h0 (s : State) (v : Word) : (s.answer v).h0 = s.h0 := rfl
@[simp] theorem answer_h1 (s : State) (v : Word) : (s.answer v).h1 = s.h1 := rfl
@[simp] theorem answer_h2 (s : State) (v : Word) : (s.answer v).h2 = s.h2 := rfl
@[simp] theorem answer_h3 (s : State) (v : Word) : (s.answer v).h3 = s.h3 := rfl
@[simp] theorem answer_a (s : State) (v : Word) : (s.answer v).a = s.a := rfl
@[simp] theorem answer_b (s : State) (v : Word) : (s.answer v).b = s.b := rfl
@[simp] theorem answer_c (s : State) (v : Word) : (s.answer v).c = s.c := rfl
@[simp] theorem answer_d (s : State) (v : Word) : (s.answer v).d = s.d := rfl
@[simp] theorem answer_phase (s : State) (v : Word) : (s.answer v).phase = s.phase := rfl
@[simp] theorem answer_rnd (s : State) (v : Word) : (s.answer v).rnd = s.rnd := rfl
@[simp] theorem answer_nxt (s : State) (v : Word) : (s.answer v).nxt = s.nxt := rfl
@[simp] theorem answer_mbuf (s : State) (v : Word) : (s.answer v).mbuf = s.mbuf := rfl
@[simp] theorem answer_bcnt (s : State) (v : Word) : (s.answer v).bcnt = s.bcnt := rfl
@[simp] theorem answer_len (s : State) (v : Word) : (s.answer v).len = s.len := rfl
@[simp] theorem answer_data (s : State) (v : Word) : (s.answer v).data = s.data := rfl
@[simp] theorem answer_ie (s : State) (v : Word) : (s.answer v).ie = s.ie := rfl
@[simp] theorem answer_err (s : State) (v : Word) : (s.answer v).err = s.err := rfl
@[simp] theorem answer_errcode (s : State) (v : Word) : (s.answer v).errcode = s.errcode := rfl
@[simp] theorem answer_turns (s : State) (v : Word) : (s.answer v).turns = s.turns := rfl
@[simp] theorem answer_rdata (s : State) (v : Word) : (s.answer v).rdata = some v := rfl

@[simp] theorem clearError_h0 (s : State) : (s.clearError).h0 = s.h0 := rfl
@[simp] theorem clearError_h1 (s : State) : (s.clearError).h1 = s.h1 := rfl
@[simp] theorem clearError_h2 (s : State) : (s.clearError).h2 = s.h2 := rfl
@[simp] theorem clearError_h3 (s : State) : (s.clearError).h3 = s.h3 := rfl
@[simp] theorem clearError_a (s : State) : (s.clearError).a = s.a := rfl
@[simp] theorem clearError_b (s : State) : (s.clearError).b = s.b := rfl
@[simp] theorem clearError_c (s : State) : (s.clearError).c = s.c := rfl
@[simp] theorem clearError_d (s : State) : (s.clearError).d = s.d := rfl
@[simp] theorem clearError_phase (s : State) : (s.clearError).phase = s.phase := rfl
@[simp] theorem clearError_rnd (s : State) : (s.clearError).rnd = s.rnd := rfl
@[simp] theorem clearError_nxt (s : State) : (s.clearError).nxt = s.nxt := rfl
@[simp] theorem clearError_mbuf (s : State) : (s.clearError).mbuf = s.mbuf := rfl
@[simp] theorem clearError_bcnt (s : State) : (s.clearError).bcnt = s.bcnt := rfl
@[simp] theorem clearError_len (s : State) : (s.clearError).len = s.len := rfl
@[simp] theorem clearError_data (s : State) : (s.clearError).data = s.data := rfl
@[simp] theorem clearError_ie (s : State) : (s.clearError).ie = s.ie := rfl
@[simp] theorem clearError_err (s : State) : (s.clearError).err = false := rfl
@[simp] theorem clearError_errcode (s : State) : (s.clearError).errcode = errNone := rfl
@[simp] theorem clearError_turns (s : State) : (s.clearError).turns = s.turns := rfl
@[simp] theorem clearError_rdata (s : State) : (s.clearError).rdata = s.rdata := rfl

@[simp] theorem startBlock_h0 (s : State) (x : BlockNext) : (s.startBlock x).h0 = s.h0 := rfl
@[simp] theorem startBlock_h1 (s : State) (x : BlockNext) : (s.startBlock x).h1 = s.h1 := rfl
@[simp] theorem startBlock_h2 (s : State) (x : BlockNext) : (s.startBlock x).h2 = s.h2 := rfl
@[simp] theorem startBlock_h3 (s : State) (x : BlockNext) : (s.startBlock x).h3 = s.h3 := rfl
@[simp] theorem startBlock_a (s : State) (x : BlockNext) : (s.startBlock x).a = s.h0 := rfl
@[simp] theorem startBlock_b (s : State) (x : BlockNext) : (s.startBlock x).b = s.h1 := rfl
@[simp] theorem startBlock_c (s : State) (x : BlockNext) : (s.startBlock x).c = s.h2 := rfl
@[simp] theorem startBlock_d (s : State) (x : BlockNext) : (s.startBlock x).d = s.h3 := rfl
@[simp] theorem startBlock_phase (s : State) (x : BlockNext) : (s.startBlock x).phase = .run := rfl
@[simp] theorem startBlock_rnd (s : State) (x : BlockNext) : (s.startBlock x).rnd = 0#7 := rfl
@[simp] theorem startBlock_nxt (s : State) (x : BlockNext) : (s.startBlock x).nxt = x.bits := rfl
@[simp] theorem startBlock_mbuf (s : State) (x : BlockNext) : (s.startBlock x).mbuf = s.mbuf := rfl
@[simp] theorem startBlock_bcnt (s : State) (x : BlockNext) : (s.startBlock x).bcnt = s.bcnt := rfl
@[simp] theorem startBlock_len (s : State) (x : BlockNext) : (s.startBlock x).len = s.len := rfl
@[simp] theorem startBlock_data (s : State) (x : BlockNext) : (s.startBlock x).data = s.data := rfl
@[simp] theorem startBlock_ie (s : State) (x : BlockNext) : (s.startBlock x).ie = s.ie := rfl
@[simp] theorem startBlock_err (s : State) (x : BlockNext) : (s.startBlock x).err = s.err := rfl
@[simp] theorem startBlock_errcode (s : State) (x : BlockNext) : (s.startBlock x).errcode = s.errcode := rfl
@[simp] theorem startBlock_turns (s : State) (x : BlockNext) : (s.startBlock x).turns = s.turns := rfl
@[simp] theorem startBlock_rdata (s : State) (x : BlockNext) : (s.startBlock x).rdata = s.rdata := rfl

@[simp] theorem setWork_h0 (s : State) (w : Quad) : (s.setWork w).h0 = s.h0 := rfl
@[simp] theorem setWork_h1 (s : State) (w : Quad) : (s.setWork w).h1 = s.h1 := rfl
@[simp] theorem setWork_h2 (s : State) (w : Quad) : (s.setWork w).h2 = s.h2 := rfl
@[simp] theorem setWork_h3 (s : State) (w : Quad) : (s.setWork w).h3 = s.h3 := rfl
@[simp] theorem setWork_a (s : State) (w : Quad) : (s.setWork w).a = w.a := rfl
@[simp] theorem setWork_b (s : State) (w : Quad) : (s.setWork w).b = w.b := rfl
@[simp] theorem setWork_c (s : State) (w : Quad) : (s.setWork w).c = w.c := rfl
@[simp] theorem setWork_d (s : State) (w : Quad) : (s.setWork w).d = w.d := rfl
@[simp] theorem setWork_phase (s : State) (w : Quad) : (s.setWork w).phase = s.phase := rfl
@[simp] theorem setWork_rnd (s : State) (w : Quad) : (s.setWork w).rnd = s.rnd := rfl
@[simp] theorem setWork_nxt (s : State) (w : Quad) : (s.setWork w).nxt = s.nxt := rfl
@[simp] theorem setWork_mbuf (s : State) (w : Quad) : (s.setWork w).mbuf = s.mbuf := rfl
@[simp] theorem setWork_bcnt (s : State) (w : Quad) : (s.setWork w).bcnt = s.bcnt := rfl
@[simp] theorem setWork_len (s : State) (w : Quad) : (s.setWork w).len = s.len := rfl
@[simp] theorem setWork_data (s : State) (w : Quad) : (s.setWork w).data = s.data := rfl
@[simp] theorem setWork_ie (s : State) (w : Quad) : (s.setWork w).ie = s.ie := rfl
@[simp] theorem setWork_err (s : State) (w : Quad) : (s.setWork w).err = s.err := rfl
@[simp] theorem setWork_errcode (s : State) (w : Quad) : (s.setWork w).errcode = s.errcode := rfl
@[simp] theorem setWork_turns (s : State) (w : Quad) : (s.setWork w).turns = s.turns := rfl
@[simp] theorem setWork_rdata (s : State) (w : Quad) : (s.setWork w).rdata = s.rdata := rfl

@[simp] theorem setChain_h0 (s : State) (w : Quad) : (s.setChain w).h0 = w.a := rfl
@[simp] theorem setChain_h1 (s : State) (w : Quad) : (s.setChain w).h1 = w.b := rfl
@[simp] theorem setChain_h2 (s : State) (w : Quad) : (s.setChain w).h2 = w.c := rfl
@[simp] theorem setChain_h3 (s : State) (w : Quad) : (s.setChain w).h3 = w.d := rfl
@[simp] theorem setChain_a (s : State) (w : Quad) : (s.setChain w).a = s.a := rfl
@[simp] theorem setChain_b (s : State) (w : Quad) : (s.setChain w).b = s.b := rfl
@[simp] theorem setChain_c (s : State) (w : Quad) : (s.setChain w).c = s.c := rfl
@[simp] theorem setChain_d (s : State) (w : Quad) : (s.setChain w).d = s.d := rfl
@[simp] theorem setChain_phase (s : State) (w : Quad) : (s.setChain w).phase = s.phase := rfl
@[simp] theorem setChain_rnd (s : State) (w : Quad) : (s.setChain w).rnd = s.rnd := rfl
@[simp] theorem setChain_nxt (s : State) (w : Quad) : (s.setChain w).nxt = s.nxt := rfl
@[simp] theorem setChain_mbuf (s : State) (w : Quad) : (s.setChain w).mbuf = s.mbuf := rfl
@[simp] theorem setChain_bcnt (s : State) (w : Quad) : (s.setChain w).bcnt = s.bcnt := rfl
@[simp] theorem setChain_len (s : State) (w : Quad) : (s.setChain w).len = s.len := rfl
@[simp] theorem setChain_data (s : State) (w : Quad) : (s.setChain w).data = s.data := rfl
@[simp] theorem setChain_ie (s : State) (w : Quad) : (s.setChain w).ie = s.ie := rfl
@[simp] theorem setChain_err (s : State) (w : Quad) : (s.setChain w).err = s.err := rfl
@[simp] theorem setChain_errcode (s : State) (w : Quad) : (s.setChain w).errcode = s.errcode := rfl
@[simp] theorem setChain_turns (s : State) (w : Quad) : (s.setChain w).turns = s.turns := rfl
@[simp] theorem setChain_rdata (s : State) (w : Quad) : (s.setChain w).rdata = s.rdata := rfl

@[simp] theorem accumulate_h0 (s : State) : (s.accumulate).h0 = s.h0 + s.a := rfl
@[simp] theorem accumulate_h1 (s : State) : (s.accumulate).h1 = s.h1 + s.b := rfl
@[simp] theorem accumulate_h2 (s : State) : (s.accumulate).h2 = s.h2 + s.c := rfl
@[simp] theorem accumulate_h3 (s : State) : (s.accumulate).h3 = s.h3 + s.d := rfl
@[simp] theorem accumulate_a (s : State) : (s.accumulate).a = s.a := rfl
@[simp] theorem accumulate_b (s : State) : (s.accumulate).b = s.b := rfl
@[simp] theorem accumulate_c (s : State) : (s.accumulate).c = s.c := rfl
@[simp] theorem accumulate_d (s : State) : (s.accumulate).d = s.d := rfl
@[simp] theorem accumulate_phase (s : State) : (s.accumulate).phase = s.phase := rfl
@[simp] theorem accumulate_rnd (s : State) : (s.accumulate).rnd = s.rnd := rfl
@[simp] theorem accumulate_nxt (s : State) : (s.accumulate).nxt = s.nxt := rfl
@[simp] theorem accumulate_mbuf (s : State) : (s.accumulate).mbuf = s.mbuf := rfl
@[simp] theorem accumulate_bcnt (s : State) : (s.accumulate).bcnt = s.bcnt := rfl
@[simp] theorem accumulate_len (s : State) : (s.accumulate).len = s.len := rfl
@[simp] theorem accumulate_data (s : State) : (s.accumulate).data = s.data := rfl
@[simp] theorem accumulate_ie (s : State) : (s.accumulate).ie = s.ie := rfl
@[simp] theorem accumulate_err (s : State) : (s.accumulate).err = s.err := rfl
@[simp] theorem accumulate_errcode (s : State) : (s.accumulate).errcode = s.errcode := rfl
@[simp] theorem accumulate_turns (s : State) : (s.accumulate).turns = s.turns := rfl
@[simp] theorem accumulate_rdata (s : State) : (s.accumulate).rdata = s.rdata := rfl

@[simp] theorem round_h0 (s : State) (i : BitVec 6) : (s.round i).h0 = s.h0 := rfl
@[simp] theorem round_h1 (s : State) (i : BitVec 6) : (s.round i).h1 = s.h1 := rfl
@[simp] theorem round_h2 (s : State) (i : BitVec 6) : (s.round i).h2 = s.h2 := rfl
@[simp] theorem round_h3 (s : State) (i : BitVec 6) : (s.round i).h3 = s.h3 := rfl
@[simp] theorem round_phase (s : State) (i : BitVec 6) : (s.round i).phase = s.phase := rfl
@[simp] theorem round_nxt (s : State) (i : BitVec 6) : (s.round i).nxt = s.nxt := rfl
@[simp] theorem round_mbuf (s : State) (i : BitVec 6) : (s.round i).mbuf = s.mbuf := rfl
@[simp] theorem round_bcnt (s : State) (i : BitVec 6) : (s.round i).bcnt = s.bcnt := rfl
@[simp] theorem round_len (s : State) (i : BitVec 6) : (s.round i).len = s.len := rfl
@[simp] theorem round_data (s : State) (i : BitVec 6) : (s.round i).data = s.data := rfl
@[simp] theorem round_ie (s : State) (i : BitVec 6) : (s.round i).ie = s.ie := rfl
@[simp] theorem round_err (s : State) (i : BitVec 6) : (s.round i).err = s.err := rfl
@[simp] theorem round_errcode (s : State) (i : BitVec 6) : (s.round i).errcode = s.errcode := rfl
@[simp] theorem round_turns (s : State) (i : BitVec 6) : (s.round i).turns = s.turns := rfl
@[simp] theorem round_rdata (s : State) (i : BitVec 6) : (s.round i).rdata = s.rdata := rfl
@[simp] theorem round_rnd (s : State) (i : BitVec 6) : (s.round i).rnd = i.setWidth 7 + 1#7 := rfl

/-- The working registers after a round (R204). -/
theorem round_work (s : State) (i : BitVec 6) :
    (s.round i).work = roundQuad i (Memory.word s.mbuf (gIndex i)) s.work := rfl

@[simp] theorem round_chainQuad (s : State) (i : BitVec 6) : (s.round i).chainQuad = s.chainQuad := rfl
@[simp] theorem setWork_work (s : State) (w : Quad) : (s.setWork w).work = w := rfl
@[simp] theorem setWork_chainQuad (s : State) (w : Quad) : (s.setWork w).chainQuad = s.chainQuad := rfl
@[simp] theorem setChain_chainQuad (s : State) (w : Quad) : (s.setChain w).chainQuad = w := rfl
@[simp] theorem setChain_work (s : State) (w : Quad) : (s.setChain w).work = s.work := rfl
@[simp] theorem accumulate_chainQuad (s : State) : s.accumulate.chainQuad = s.chainQuad.add s.work := rfl
@[simp] theorem accumulate_work (s : State) : s.accumulate.work = s.work := rfl
@[simp] theorem startBlock_work (s : State) (x : BlockNext) : (s.startBlock x).work = s.chainQuad := rfl
@[simp] theorem startBlock_chainQuad (s : State) (x : BlockNext) :
    (s.startBlock x).chainQuad = s.chainQuad := rfl
@[simp] theorem answer_work (s : State) (v : Word) : (s.answer v).work = s.work := rfl
@[simp] theorem answer_chainQuad (s : State) (v : Word) : (s.answer v).chainQuad = s.chainQuad := rfl

/-- The first error is kept (R302). -/
theorem raiseCmdError_of_err (s : State) (e : CmdError) (h : s.err = true) : s.raiseCmdError e = s := by
  simp [State.raiseCmdError, h]

/-- Without an earlier error, ERR and ERRCODE are written and nothing else (R302). -/
theorem raiseCmdError_of_clear (s : State) (e : CmdError) (h : s.err = false) :
    s.raiseCmdError e = { s with err := true, errcode := e.code } := by
  simp [State.raiseCmdError, h]

@[simp] theorem raiseCmdError_h0 (s : State) (e : CmdError) : (s.raiseCmdError e).h0 = s.h0 := by
  unfold State.raiseCmdError; split <;> rfl
@[simp] theorem raiseCmdError_h1 (s : State) (e : CmdError) : (s.raiseCmdError e).h1 = s.h1 := by
  unfold State.raiseCmdError; split <;> rfl
@[simp] theorem raiseCmdError_h2 (s : State) (e : CmdError) : (s.raiseCmdError e).h2 = s.h2 := by
  unfold State.raiseCmdError; split <;> rfl
@[simp] theorem raiseCmdError_h3 (s : State) (e : CmdError) : (s.raiseCmdError e).h3 = s.h3 := by
  unfold State.raiseCmdError; split <;> rfl
@[simp] theorem raiseCmdError_a (s : State) (e : CmdError) : (s.raiseCmdError e).a = s.a := by
  unfold State.raiseCmdError; split <;> rfl
@[simp] theorem raiseCmdError_b (s : State) (e : CmdError) : (s.raiseCmdError e).b = s.b := by
  unfold State.raiseCmdError; split <;> rfl
@[simp] theorem raiseCmdError_c (s : State) (e : CmdError) : (s.raiseCmdError e).c = s.c := by
  unfold State.raiseCmdError; split <;> rfl
@[simp] theorem raiseCmdError_d (s : State) (e : CmdError) : (s.raiseCmdError e).d = s.d := by
  unfold State.raiseCmdError; split <;> rfl
@[simp] theorem raiseCmdError_phase (s : State) (e : CmdError) : (s.raiseCmdError e).phase = s.phase := by
  unfold State.raiseCmdError; split <;> rfl
@[simp] theorem raiseCmdError_rnd (s : State) (e : CmdError) : (s.raiseCmdError e).rnd = s.rnd := by
  unfold State.raiseCmdError; split <;> rfl
@[simp] theorem raiseCmdError_nxt (s : State) (e : CmdError) : (s.raiseCmdError e).nxt = s.nxt := by
  unfold State.raiseCmdError; split <;> rfl
@[simp] theorem raiseCmdError_mbuf (s : State) (e : CmdError) : (s.raiseCmdError e).mbuf = s.mbuf := by
  unfold State.raiseCmdError; split <;> rfl
@[simp] theorem raiseCmdError_bcnt (s : State) (e : CmdError) : (s.raiseCmdError e).bcnt = s.bcnt := by
  unfold State.raiseCmdError; split <;> rfl
@[simp] theorem raiseCmdError_len (s : State) (e : CmdError) : (s.raiseCmdError e).len = s.len := by
  unfold State.raiseCmdError; split <;> rfl
@[simp] theorem raiseCmdError_data (s : State) (e : CmdError) : (s.raiseCmdError e).data = s.data := by
  unfold State.raiseCmdError; split <;> rfl
@[simp] theorem raiseCmdError_ie (s : State) (e : CmdError) : (s.raiseCmdError e).ie = s.ie := by
  unfold State.raiseCmdError; split <;> rfl
@[simp] theorem raiseCmdError_turns (s : State) (e : CmdError) : (s.raiseCmdError e).turns = s.turns := by
  unfold State.raiseCmdError; split <;> rfl
@[simp] theorem raiseCmdError_rdata (s : State) (e : CmdError) : (s.raiseCmdError e).rdata = s.rdata := by
  unfold State.raiseCmdError; split <;> rfl
@[simp] theorem raiseCmdError_err (s : State) (e : CmdError) : (s.raiseCmdError e).err = true := by
  unfold State.raiseCmdError; split <;> simp_all
@[simp] theorem raiseCmdError_work (s : State) (e : CmdError) : (s.raiseCmdError e).work = s.work := by
  simp [State.work]
@[simp] theorem raiseCmdError_chainQuad (s : State) (e : CmdError) :
    (s.raiseCmdError e).chainQuad = s.chainQuad := by
  simp [State.chainQuad]

/-- A raised code is one of the three causes, or the code kept (R301, R302). -/
theorem raiseCmdError_errcode (s : State) (e : CmdError) :
    (s.raiseCmdError e).errcode = if s.err then s.errcode else e.code := by
  unfold State.raiseCmdError; split <;> simp_all

@[simp] theorem bits_cont : BlockNext.cont.bits = 0#2 := rfl
@[simp] theorem bits_pad2 : BlockNext.pad2.bits = 1#2 := rfl
@[simp] theorem bits_last : BlockNext.last.bits = 2#2 := rfl
@[simp] theorem code_illegalCmd : CmdError.illegalCmd.code = 1#4 := rfl
@[simp] theorem code_busy : CmdError.busy.code = 2#4 := rfl
@[simp] theorem code_sequence : CmdError.sequence.code = 3#4 := rfl

end Sys2Proof.Machine
end

