-- ==== Sys2Proof/Laws/Memory.lean ====
section
/-! SUPPORT. The laws of MBUF: a read after a write, every other byte unchanged, the canonical form kept
by every operation, and two canonical memories with the same bytes are equal. -/

namespace Sys2Proof.Machine

@[simp] theorem Memory.read_zeros (p : Nat) : Memory.read Memory.zeros p = 0x00#8 := rfl

/-- An address below every listed one reads the unlisted contents. -/
theorem Memory.read_of_wfFrom {m : Memory} {lo p : Nat} (h : Memory.wfFrom lo m = true) (hp : p < lo) :
    Memory.read m p = 0x00#8 := by
  induction m generalizing lo with
  | nil => rfl
  | cons e m ih =>
    obtain ⟨q, v⟩ := e
    simp only [Memory.wfFrom, Bool.and_eq_true, decide_eq_true_eq] at h
    have hq : q ≠ p := by omega
    simp only [Memory.read, if_neg hq]
    exact ih h.2 (by omega)

theorem Memory.wfFrom_mono {m : Memory} {lo lo' : Nat} (h : Memory.wfFrom lo m = true) (hl : lo' ≤ lo) :
    Memory.wfFrom lo' m = true := by
  cases m with
  | nil => rfl
  | cons e m =>
    obtain ⟨q, v⟩ := e
    simp only [Memory.wfFrom, Bool.and_eq_true, decide_eq_true_eq] at h ⊢
    exact ⟨⟨⟨by omega, h.1.1.2⟩, h.1.2⟩, h.2⟩

theorem Memory.read_insert (m : Memory) (p q : Nat) (v : Byte) :
    Memory.read (Memory.insert p v m) q = if p = q then v else Memory.read m q := by
  induction m with
  | nil => simp [Memory.insert, Memory.read]
  | cons e m ih =>
    obtain ⟨r, w⟩ := e
    by_cases h1 : p < r
    · simp [Memory.insert, h1, Memory.read]
    · by_cases h2 : p = r
      · subst h2
        by_cases h3 : p = q <;> simp [Memory.insert, Memory.read, h3]
      · by_cases h3 : r = q
        · subst h3; simp [Memory.insert, Memory.read, h1, h2]
        · simp [Memory.insert, Memory.read, h1, h2, h3, ih]

theorem Memory.read_erase (m : Memory) (p q : Nat) :
    Memory.read (Memory.erase p m) q = if p = q then 0x00#8 else Memory.read m q := by
  induction m with
  | nil => simp [Memory.erase, Memory.read]
  | cons e m ih =>
    obtain ⟨r, w⟩ := e
    by_cases h1 : r = p
    · subst h1
      by_cases h2 : r = q
      · subst h2; simpa [Memory.erase] using ih
      · simp [Memory.erase, Memory.read, ih, h2]
    · by_cases h2 : r = q
      · subst h2; simp [Memory.erase, Memory.read, h1, Ne.symm h1]
      · simp [Memory.erase, Memory.read, h1, h2, ih]

theorem Memory.wfFrom_insert {m : Memory} {lo p : Nat} {v : Byte} (h : Memory.wfFrom lo m = true)
    (hlo : lo ≤ p) (hp : p < 64) (hv : v ≠ 0x00#8) : Memory.wfFrom lo (Memory.insert p v m) = true := by
  induction m generalizing lo with
  | nil => simp [Memory.insert, Memory.wfFrom, hlo, hp, hv]
  | cons e m ih =>
    obtain ⟨r, w⟩ := e
    simp only [Memory.wfFrom, Bool.and_eq_true, decide_eq_true_eq] at h
    by_cases h1 : p < r
    · simp only [Memory.insert, if_pos h1, Memory.wfFrom, Bool.and_eq_true, decide_eq_true_eq]
      exact ⟨⟨⟨hlo, hp⟩, hv⟩, ⟨⟨by omega, h.1.1.2⟩, h.1.2⟩, h.2⟩
    · by_cases h2 : p = r
      · subst h2
        simp only [Memory.insert, if_neg h1, if_true, Memory.wfFrom, Bool.and_eq_true,
          decide_eq_true_eq]
        exact ⟨⟨⟨hlo, hp⟩, hv⟩, h.2⟩
      · simp only [Memory.insert, if_neg h1, if_neg h2, Memory.wfFrom, Bool.and_eq_true,
          decide_eq_true_eq]
        exact ⟨h.1, ih h.2 (by omega)⟩

theorem Memory.wfFrom_erase {m : Memory} {lo : Nat} (p : Nat) (h : Memory.wfFrom lo m = true) :
    Memory.wfFrom lo (Memory.erase p m) = true := by
  induction m generalizing lo with
  | nil => rfl
  | cons e m ih =>
    obtain ⟨r, w⟩ := e
    simp only [Memory.wfFrom, Bool.and_eq_true, decide_eq_true_eq] at h
    by_cases h1 : r = p
    · simp only [Memory.erase, if_pos h1]
      exact Memory.wfFrom_mono (ih h.2) (by omega)
    · simp only [Memory.erase, if_neg h1, Memory.wfFrom, Bool.and_eq_true, decide_eq_true_eq]
      exact ⟨h.1, ih h.2⟩

/-- A read after a write: the value written there, and every other byte as before. -/
theorem Memory.read_write (m : Memory) (p q : Nat) (v : Byte) :
    Memory.read (Memory.write m p v) q = if p = q then v else Memory.read m q := by
  unfold Memory.write
  split
  · rename_i hv; rw [Memory.read_erase, hv]
  · rw [Memory.read_insert]

theorem Memory.read_write_other (m : Memory) {p q : Nat} (v : Byte) (h : p ≠ q) :
    Memory.read (Memory.write m p v) q = Memory.read m q := by
  simp [Memory.read_write, h]

@[simp] theorem Memory.read_write_same (m : Memory) (p : Nat) (v : Byte) :
    Memory.read (Memory.write m p v) p = v := by
  simp [Memory.read_write]

/-- A write to an address of MBUF keeps the canonical form. -/
theorem Memory.wf_write {m : Memory} {p : Nat} {v : Byte} (h : Memory.wf m = true) (hp : p < 64) :
    Memory.wf (Memory.write m p v) = true := by
  unfold Memory.write
  split
  · exact Memory.wfFrom_erase p h
  · rename_i hv; exact Memory.wfFrom_insert h (Nat.zero_le p) hp hv

/-- Two canonical memories with the same bytes are equal data. -/
theorem Memory.ext_of_wfFrom {m m' : Memory} {lo : Nat} (h : Memory.wfFrom lo m = true)
    (h' : Memory.wfFrom lo m' = true) (hr : ∀ p, Memory.read m p = Memory.read m' p) : m = m' := by
  induction m generalizing m' lo with
  | nil =>
    cases m' with
    | nil => rfl
    | cons e m' =>
      obtain ⟨q, v⟩ := e
      simp only [Memory.wfFrom, Bool.and_eq_true, decide_eq_true_eq] at h'
      have := hr q
      simp [Memory.read] at this
      exact absurd this.symm h'.1.2
  | cons e m ih =>
    obtain ⟨q, v⟩ := e
    simp only [Memory.wfFrom, Bool.and_eq_true, decide_eq_true_eq] at h
    cases m' with
    | nil =>
      have := hr q
      simp [Memory.read] at this
      exact absurd this h.1.2
    | cons e' m' =>
      obtain ⟨q', v'⟩ := e'
      simp only [Memory.wfFrom, Bool.and_eq_true, decide_eq_true_eq] at h'
      have hqq : q = q' := by
        rcases Nat.lt_trichotomy q q' with hl | he | hg
        · have := hr q
          simp only [Memory.read, if_true, if_neg (show ¬ q' = q by omega)] at this
          rw [Memory.read_of_wfFrom h'.2 (by omega)] at this
          exact absurd this h.1.2
        · exact he
        · have := hr q'
          simp only [Memory.read, if_true, if_neg (show ¬ q = q' by omega)] at this
          rw [Memory.read_of_wfFrom h.2 (by omega)] at this
          exact absurd this.symm h'.1.2
      subst hqq
      have hv : v = v' := by simpa [Memory.read] using hr q
      subst hv
      congr 1
      refine ih h.2 h'.2 fun p => ?_
      by_cases hp : q = p
      · subst hp
        rw [Memory.read_of_wfFrom h.2 (by omega), Memory.read_of_wfFrom h'.2 (by omega)]
      · have := hr p
        simpa only [Memory.read, if_neg hp] using this

theorem Memory.ext {m m' : Memory} (h : Memory.wf m = true) (h' : Memory.wf m' = true)
    (hr : ∀ p, Memory.read m p = Memory.read m' p) : m = m' :=
  Memory.ext_of_wfFrom h h' hr

/-- Storing a run of bytes inside MBUF keeps the canonical form. -/
theorem Memory.wf_writeBytes {m : Memory} {p : Nat} {vs : List Byte} (h : Memory.wf m = true)
    (hp : p + vs.length ≤ 64) : Memory.wf (Memory.writeBytes m p vs) = true := by
  induction vs generalizing m p with
  | nil => exact h
  | cons v vs ih =>
    simp only [List.length_cons] at hp
    exact ih (Memory.wf_write h (by omega)) (by omega)

/-- A run of bytes leaves everything outside it. -/
theorem Memory.read_writeBytes_other (m : Memory) {p q : Nat} (vs : List Byte)
    (h : q < p ∨ p + vs.length ≤ q) :
    Memory.read (Memory.writeBytes m p vs) q = Memory.read m q := by
  induction vs generalizing m p with
  | nil => rfl
  | cons v vs ih =>
    simp only [List.length_cons] at h
    simp only [Memory.writeBytes]
    rw [ih _ (by omega), Memory.read_write_other _ _ (by omega)]

/-- What a run of bytes reads as, address by address. -/
theorem Memory.read_writeBytes (m : Memory) (p q : Nat) (vs : List Byte) :
    Memory.read (Memory.writeBytes m p vs) q =
      if p ≤ q ∧ q < p + vs.length then vs.getD (q - p) 0x00#8 else Memory.read m q := by
  induction vs generalizing m p with
  | nil => simp [Memory.writeBytes]
  | cons v vs ih =>
    simp only [Memory.writeBytes, List.length_cons]
    rw [ih]
    by_cases h1 : p = q
    · subst h1; simp
    · by_cases h2 : p + 1 ≤ q ∧ q < p + 1 + vs.length
      · have hq : q - p = (q - (p + 1)) + 1 := by omega
        rw [if_pos h2, if_pos (by omega), hq, List.getD_cons_succ]
      · rw [if_neg h2, if_neg (by omega), Memory.read_write_other _ _ h1]

end Sys2Proof.Machine
end

