-- ==== Sys2Proof/Laws/Padder.lean ====
section
/-! SUPPORT. What the operand forms and the padder give, byte by byte. -/

namespace Sys2Proof.Machine

@[simp] theorem le64_length (v : BitVec 64) : (le64 v).length = 8 := rfl

/-- Byte j of LE64 (R74). -/
theorem le64_getD (v : BitVec 64) {j : Nat} (h : j < 8) :
    (le64 v).getD j 0x00#8 = v.extractLsb' (8 * j) 8 := by
  interval_cases j <;> rfl

theorem dataLanes_length (v : Word) {t : Nat} (h : t ≤ 4) : (dataLanes v t).length = t := by
  interval_cases t <;> rfl

/-- Lane j of the first t lanes (R72). -/
theorem dataLanes_getD (v : Word) {t j : Nat} (h : t ≤ 4) (hj : j < t) :
    (dataLanes v t).getD j 0x00#8 = v.extractLsb' (8 * j) 8 := by
  interval_cases t <;> interval_cases j <;> rfl

/-- Byte j of a little-endian word (R73). -/
theorem littleEndian_byte (b0 b1 b2 b3 : Byte) {j : Nat} (h : j < 4) :
    (littleEndian b0 b1 b2 b3).extractLsb' (8 * j) 8 = [b0, b1, b2, b3].getD j 0x00#8 := by
  apply BitVec.eq_of_getLsbD_eq
  intro i hi
  interval_cases j <;> interval_cases i <;> simp [littleEndian]

/-- Byte j of Word(g) is MBUF[4g + j] (R73). -/
theorem word_byte (m : Memory) (g : BitVec 4) {j : Nat} (h : j < 4) :
    (Memory.word m g).extractLsb' (8 * j) 8 = Memory.read m (4 * g.toNat + j) := by
  rw [Memory.word, littleEndian_byte _ _ _ _ h]
  interval_cases j <;> rfl

/-- What PadFinal leaves at every address (R172). -/
theorem read_padFinal (m : Memory) (b : Nat) (len : BitVec 64) (hb : b < 64) (p : Nat) :
    Memory.read (padFinal m b len) p =
      if p < b ∨ 64 ≤ p then Memory.read m p
      else if p = b then 0x80#8
      else if b ≤ 55 ∧ 56 ≤ p then (le64 len).getD (p - 56) 0x00#8
      else 0x00#8 := by
  unfold padFinal
  by_cases h : b ≤ 55
  · simp only [h, if_true, Memory.read_writeBytes, le64_length, List.length_replicate, true_and]
    by_cases h1 : 56 ≤ p ∧ p < 56 + 8
    · rw [if_pos h1, if_neg (by omega), if_neg (by omega), if_pos h1.1]
    · rw [if_neg h1]
      by_cases h2 : b + 1 ≤ p ∧ p < b + 1 + (55 - b)
      · rw [if_pos h2, if_neg (by omega), if_neg (by omega), if_neg (by omega)]
        exact List.getD_replicate _ (by omega)
      · rw [if_neg h2, Memory.read_write]
        by_cases h3 : p = b
        · subst h3; simp; omega
        · rw [if_neg (Ne.symm h3), if_pos (by omega)]
  · simp only [h, if_false, Memory.read_writeBytes, List.length_replicate, false_and]
    by_cases h2 : b + 1 ≤ p ∧ p < b + 1 + (63 - b)
    · rw [if_pos h2, if_neg (by omega), if_neg (by omega)]
      exact List.getD_replicate _ (by omega)
    · rw [if_neg h2, Memory.read_write]
      by_cases h3 : p = b
      · subst h3; simp; omega
      · rw [if_neg (Ne.symm h3), if_pos (by omega)]

/-- What PadBlock leaves at every address (R173). -/
theorem read_padBlock (m : Memory) (len : BitVec 64) (p : Nat) :
    Memory.read (padBlock m len) p =
      if p < 56 then 0x00#8
      else if p < 64 then (le64 len).getD (p - 56) 0x00#8
      else Memory.read m p := by
  unfold padBlock
  simp only [Memory.read_writeBytes, le64_length, List.length_replicate]
  by_cases h1 : p < 56
  · rw [if_neg (by omega), if_pos (by omega), if_pos h1]
    exact List.getD_replicate _ (by omega)
  · rw [if_neg h1]
    by_cases h2 : p < 64
    · rw [if_pos (by omega), if_pos h2]
    · rw [if_neg (by omega), if_neg (by omega), if_neg h2]

theorem wf_padFinal {m : Memory} {b : Nat} {len : BitVec 64} (h : Memory.wf m = true) (hb : b < 64) :
    Memory.wf (padFinal m b len) = true := by
  unfold padFinal
  have h1 : Memory.wf (Memory.write m b 0x80#8) = true := Memory.wf_write h hb
  split
  · refine Memory.wf_writeBytes (Memory.wf_writeBytes h1 ?_) ?_ <;> simp; omega
  · refine Memory.wf_writeBytes h1 ?_
    simp; omega

theorem wf_padBlock {m : Memory} {len : BitVec 64} (h : Memory.wf m = true) :
    Memory.wf (padBlock m len) = true := by
  unfold padBlock
  refine Memory.wf_writeBytes (Memory.wf_writeBytes h ?_) ?_ <;> simp

end Sys2Proof.Machine
end

