-- ==== Sys2Proof/Laws/Exec.lean ====
section
/-! SUPPORT. What each shared operation and each command can do, said once: the gate (R146), the room in
MBUF, PUSH, FINAL, WR_CMD, a round, and the step. -/

namespace Sys2Proof.Machine

/-! ### The gate -/

theorem gated_of_err {s : State} {k : State → Host.Outcome State Fault Refusal} (h : s.err = true) :
    s.gated k = .next s := by
  simp [State.gated, h]

theorem gated_of_run {s : State} {k : State → Host.Outcome State Fault Refusal} (h : s.err = false)
    (hp : s.phase = .run) : s.gated k = .next (s.raiseCmdError .busy) := by
  simp [State.gated, h, hp]

theorem gated_of_closed {s : State} {k : State → Host.Outcome State Fault Refusal} (h : s.err = false)
    (hp : s.phase = .idle ∨ s.phase = .done) : s.gated k = .next (s.raiseCmdError .sequence) := by
  rcases hp with hp | hp <;> simp [State.gated, h, hp]

theorem gated_of_absorb {s : State} {k : State → Host.Outcome State Fault Refusal} (h : s.err = false)
    (hp : s.phase = .absorb) : s.gated k = k s := by
  simp [State.gated, h, hp]

/-- Everything a gated command can do (R146, R306, R307). -/
theorem gated_cases (s : State) (k : State → Host.Outcome State Fault Refusal) :
    (s.err = true ∧ s.gated k = .next s) ∨
    (s.err = false ∧ s.phase = .run ∧ s.gated k = .next (s.raiseCmdError .busy)) ∨
    (s.err = false ∧ (s.phase = .idle ∨ s.phase = .done) ∧
      s.gated k = .next (s.raiseCmdError .sequence)) ∨
    (s.err = false ∧ s.phase = .absorb ∧ s.gated k = k s) := by
  cases he : s.err
  · cases hp : s.phase
    · exact .inr (.inr (.inl ⟨rfl, .inl rfl, gated_of_closed he (.inl hp)⟩))
    · exact .inr (.inr (.inr ⟨rfl, rfl, gated_of_absorb he hp⟩))
    · exact .inr (.inl ⟨rfl, rfl, gated_of_run he hp⟩)
    · exact .inr (.inr (.inl ⟨rfl, .inr rfl, gated_of_closed he (.inr hp)⟩))
  · exact .inl ⟨rfl, gated_of_err he⟩

theorem ifRoom_pos {s : State} {n : Nat} {o : Host.Outcome State Fault Refusal}
    (h : s.bcnt.toNat + n ≤ 64) : s.ifRoom n o = o := by
  simp [State.ifRoom, h]

theorem ifRoom_neg {s : State} {n : Nat} {o : Host.Outcome State Fault Refusal}
    (h : 64 < s.bcnt.toNat + n) : s.ifRoom n o = .fault .mbufOutOfRange := by
  have : ¬ s.bcnt.toNat + n ≤ 64 := by omega
  simp [State.ifRoom, this]

/-! ### PUSH and FINAL -/

theorem execPush_accepted {s : State} (he : s.err = false) (hp : s.phase = .absorb)
    (hb : s.bcnt.toNat + 4 ≤ 64) : execPush s = .next s.pushed := by
  rw [execPush, gated_of_absorb he hp, ifRoom_pos hb]

theorem execFinal_accepted {s : State} {t : BitVec 2} (he : s.err = false) (hp : s.phase = .absorb)
    (hb : s.bcnt.toNat + t.toNat < 64) : execFinal t s = .next (s.finalised t) := by
  rw [execFinal, gated_of_absorb he hp, ifRoom_pos (by omega)]

/-- Everything PUSH can do when it answers a next state. -/
theorem execPush_next {s t : State} (h : execPush s = .next t) :
    (s.err = true ∧ t = s) ∨
    (s.err = false ∧ s.phase = .run ∧ t = s.raiseCmdError .busy) ∨
    (s.err = false ∧ (s.phase = .idle ∨ s.phase = .done) ∧ t = s.raiseCmdError .sequence) ∨
    (s.err = false ∧ s.phase = .absorb ∧ s.bcnt.toNat + 4 ≤ 64 ∧ t = s.pushed) := by
  unfold execPush at h
  rcases gated_cases s fun s => s.ifRoom 4 (.next s.pushed) with
    ⟨he, hg⟩ | ⟨he, hp, hg⟩ | ⟨he, hp, hg⟩ | ⟨he, hp, hg⟩ <;> rw [hg] at h
  · cases h; exact .inl ⟨he, rfl⟩
  · cases h; exact .inr (.inl ⟨he, hp, rfl⟩)
  · cases h; exact .inr (.inr (.inl ⟨he, hp, rfl⟩))
  · by_cases hb : s.bcnt.toNat + 4 ≤ 64
    · rw [ifRoom_pos hb] at h; cases h; exact .inr (.inr (.inr ⟨he, hp, hb, rfl⟩))
    · rw [ifRoom_neg (by omega)] at h; cases h

/-- Everything FINAL can do when it answers a next state. -/
theorem execFinal_next {s t : State} {n : BitVec 2} (h : execFinal n s = .next t) :
    (s.err = true ∧ t = s) ∨
    (s.err = false ∧ s.phase = .run ∧ t = s.raiseCmdError .busy) ∨
    (s.err = false ∧ (s.phase = .idle ∨ s.phase = .done) ∧ t = s.raiseCmdError .sequence) ∨
    (s.err = false ∧ s.phase = .absorb ∧ s.bcnt.toNat + n.toNat < 64 ∧ t = s.finalised n) := by
  unfold execFinal at h
  rcases gated_cases s fun s => s.ifRoom (n.toNat + 1) (.next (s.finalised n)) with
    ⟨he, hg⟩ | ⟨he, hp, hg⟩ | ⟨he, hp, hg⟩ | ⟨he, hp, hg⟩ <;> rw [hg] at h
  · cases h; exact .inl ⟨he, rfl⟩
  · cases h; exact .inr (.inl ⟨he, hp, rfl⟩)
  · cases h; exact .inr (.inr (.inl ⟨he, hp, rfl⟩))
  · by_cases hb : s.bcnt.toNat + (n.toNat + 1) ≤ 64
    · rw [ifRoom_pos hb] at h; cases h; exact .inr (.inr (.inr ⟨he, hp, by omega, rfl⟩))
    · rw [ifRoom_neg (by omega)] at h; cases h

/-! ### WR_CMD -/

theorem execWrCmd_legal {w : Word} {c : Command} (h : decodeCmd w = some c) (s : State) :
    exec (.wrCmd w) s = exec c.instr s := by
  cases c <;> simp [exec, execWrCmd, h, runCommand, Command.instr]

theorem execWrCmd_illegal {w : Word} (h : decodeCmd w = none) (s : State) :
    exec (.wrCmd w) s = .next (s.raiseCmdError .illegalCmd) := by
  simp [exec, execWrCmd, h]

/-! ### A round, by its selector -/

theorem selectedRound_legal {n : BitVec 2} (h : n ≠ 3#2) (s : State) (i : BitVec 6) :
    s.selectedRound n i = .next (s.round i) := by
  simp [State.selectedRound, h]

theorem selectedRound_illegal (s : State) (i : BitVec 6) :
    s.selectedRound 3#2 i = .fault .unreachableSelector := by
  simp [State.selectedRound]

/-- Every round instruction that a selector decodes to runs the datapath of index RND (R204, R106). -/
theorem exec_decodeRound (n q : BitVec 2) (j : BitVec 4) (s : State) :
    exec (decodeRound n q j) s = s.selectedRound n (roundIndex q j) := by
  have hq : q = 0#2 ∨ q = 1#2 ∨ q = 2#2 ∨ q = 3#2 := by revert q; decide
  rcases hq with rfl | rfl | rfl | rfl <;> rfl

/-- A selector whose RND is below 64 runs that round. -/
theorem exec_of_sel_round {s s1 : State} {i : Instr} (h6 : s.rnd.toNat < 64)
    (h : decodeSel s.sel = some i) :
    exec i s1 = s1.selectedRound s.nxt (BitVec.ofNat 6 s.rnd.toNat) := by
  have h7 : s.sel.getLsbD 6 = false := by
    revert h6; simp only [State.sel]; generalize s.nxt = n; generalize s.rnd = r; revert n r; decide
  rw [decodeSel, if_pos h7] at h
  cases h
  rw [exec_decodeRound]
  have e1 : s.sel.extractLsb' 7 2 = s.nxt := by
    simp only [State.sel]; generalize s.nxt = n; generalize s.rnd = r; revert n r; decide
  have e2 : roundIndex (s.sel.extractLsb' 4 2) (s.sel.extractLsb' 0 4) =
      BitVec.ofNat 6 s.rnd.toNat := by
    simp only [State.sel, roundIndex]; generalize s.nxt = n; generalize s.rnd = r; revert n r; decide
  rw [e1, e2]

/-- A selector that is no encoding, or a round's with NEXT = 3, is one of R109. -/
theorem decodeSel_cases (n : BitVec 2) (r : BitVec 7) :
    (r.toNat < 64 ∧ ∃ i, decodeSel (n ++ r) = some i) ∨
    (r = 64#7 ∧ n = 0#2 ∧ decodeSel (n ++ r) = some .accumCont) ∨
    (r = 64#7 ∧ n = 1#2 ∧ decodeSel (n ++ r) = some .accumPad2) ∨
    (r = 64#7 ∧ n = 2#2 ∧ decodeSel (n ++ r) = some .accumLast) ∨
    (decodeSel (n ++ r) = none ∧ (65 ≤ r.toNat ∨ n = 3#2)) := by
  have h : (r.toNat < 64 ∧ (decodeSel (n ++ r)).isSome = true) ∨
    (r = 64#7 ∧ n = 0#2 ∧ decodeSel (n ++ r) = some .accumCont) ∨
    (r = 64#7 ∧ n = 1#2 ∧ decodeSel (n ++ r) = some .accumPad2) ∨
    (r = 64#7 ∧ n = 2#2 ∧ decodeSel (n ++ r) = some .accumLast) ∨
    (decodeSel (n ++ r) = none ∧ (65 ≤ r.toNat ∨ n = 3#2)) := by
    revert n r; decide
  simpa only [Option.isSome_iff_exists] using h

/-! ### The step -/

theorem step_of_instr {s s1 : State} {i : Instr} (h : fetch s = .instr i s1) : step s = exec i s1 := by
  simp [step, h]

theorem step_of_idle {s s1 : State} (h : fetch s = .idle s1) : step s = .next s1 := by
  simp [step, h]

theorem step_of_reset {s s1 : State} (h : fetch s = .reset s1) : step s = .next s1 := by
  simp [step, h]

/-- Everything a step can be when it answers a next state. -/
theorem step_next {s t : State} (h : step s = .next t) :
    (∃ i s1, fetch s = .instr i s1 ∧ exec i s1 = .next t) ∨ fetch s = .idle t ∨ fetch s = .reset t := by
  unfold step at h
  split at h
  · rename_i i s1 hf; exact .inl ⟨i, s1, hf, h⟩
  · rename_i s1 hf; cases h; exact .inr (.inl hf)
  · rename_i s1 hf; cases h; exact .inr (.inr hf)
  · cases h
  · cases h

end Sys2Proof.Machine
end

