-- ==== Sys2Proof/Laws/Message.lean ====
section
/-! SUPPORT. The padded message (R170), its blocks (R71, R73) and the chaining value after some of them:
lengths, bytes, and that the value after k blocks depends on those blocks alone. -/

namespace Sys2Proof.Machine

/-- R170: the padded length is ceil((n + 9) / 64) * 64. -/
theorem padMessage_length (m : List Byte) : (padMessage m).length = (m.length + 9 + 63) / 64 * 64 := by
  simp [padMessage, padZeros, le64]; omega

/-- Every byte of the padded message (R170). -/
theorem padMessage_getD (m : List Byte) (p : Nat) :
    (padMessage m).getD p 0x00#8 =
      if p < m.length then m.getD p 0x00#8
      else if p = m.length then 0x80#8
      else if p < (padMessage m).length - 8 then 0x00#8
      else (le64 (BitVec.ofNat 64 (8 * m.length))).getD (p - ((padMessage m).length - 8)) 0x00#8 := by
  have hl : (padMessage m).length = m.length + 1 + padZeros m.length + 8 := by simp [padMessage]; omega
  rw [hl]; unfold padMessage
  by_cases h1 : p < m.length
  · simp only [h1, if_true]
    rw [List.append_assoc, List.append_assoc, List.getD_append _ _ _ _ h1]
  · by_cases h2 : p = m.length
    · subst h2; rw [List.append_assoc, List.append_assoc, List.getD_append_right _ _ _ _ (by simp)]
      simp
    · by_cases h3 : p < m.length + 1 + padZeros m.length
      · simp only [h1, h2, if_false]
        rw [if_pos (by omega), List.getD_append _ _ _ _ (by simp; omega),
          List.getD_append_right _ _ _ _ (by simp; omega), List.getD_replicate]
        simp; omega
      · simp only [h1, h2, if_false]
        rw [if_neg (by omega), List.getD_append_right _ _ _ _ (by simp; omega)]
        congr 1; simp; omega

/-- Byte q of block k (R71). -/
theorem messageBlock_getD (p : List Byte) (k q : Nat) :
    (messageBlock p k).getD q 0x00#8 = if q < 64 then p.getD (64 * k + q) 0x00#8 else 0x00#8 := by
  unfold messageBlock
  simp only [List.getD_eq_getElem?_getD, List.getElem?_take, List.getElem?_drop]
  split <;> rfl

theorem messageBlock_length (p : List Byte) (k : Nat) :
    (messageBlock p k).length = min 64 (p.length - 64 * k) := by
  simp [messageBlock]

/-- A whole block in MBUF: Word(g) of MBUF is Word(g) of the block (R73). -/
theorem word_of_mbufHolds {m : Memory} {b : List Byte} (h : mbufHolds m b) (hl : b.length = 64)
    (g : BitVec 4) : Memory.word m g = blockWord b g := by
  have := g.isLt
  unfold Memory.word blockWord
  rw [h _ (by omega), h _ (by omega), h _ (by omega), h _ (by omega)]

/-- The chaining value after k blocks depends on their 64k bytes only. -/
theorem chainAfter_append (p q : List Byte) {k : Nat} (h : 64 * k ≤ p.length) :
    chainAfter (p ++ q) k = chainAfter p k := by
  induction k with
  | zero => rfl
  | succ k ih =>
    unfold chainAfter
    rw [ih (by omega)]
    congr 2
    unfold messageBlock
    rw [List.drop_append_of_le_length (by omega), List.take_append_of_le_length (by simp; omega)]

/-- LEN counts bits: absorbing t bytes more (R171). -/
theorem lenBits_add (n t : Nat) :
    BitVec.ofNat 64 (8 * n) + BitVec.ofNat 64 (8 * t) = BitVec.ofNat 64 (8 * (n + t)) := by
  rw [← BitVec.ofNat_add]; congr 1; omega

end Sys2Proof.Machine
end

