-- ==== Sys2Proof/Laws/Step.lean ====
section
/-! SUPPORT. What a step of each agent can do, said once: the engine's step (R217) is one of its
micro-operations, a host step is a read, a register write, a write without effect, or a command. -/

namespace Sys2Proof.Machine

/-! ### The engine's step -/

theorem fetchEngine_instr {s s1 : State} {i : Instr} (h : fetchEngine s = .instr i s1) :
    s1 = s ∧ s.phase = .run ∧ decodeSel s.sel = some i := by
  unfold fetchEngine at h
  split at h
  · rename_i hp
    split at h
    · rename_i j hj; cases h; exact ⟨rfl, hp, hj⟩
    · cases h
  · cases h

/-- In RUN the engine's step is the instruction SEL decodes to (R217). -/
theorem fetchEngine_of_sel {s : State} {i : Instr} (hp : s.phase = .run)
    (hd : decodeSel s.sel = some i) : fetchEngine s = .instr i s := by
  unfold fetchEngine; rw [if_pos hp, hd]

/-- SEL decoded as an encoded operation. -/
theorem decodeSel_of_decode {v : BitVec 9} {i : Instr} (h : decode (.sel v) = .ok i) :
    decodeSel v = some i := by
  simp only [decode] at h
  split at h
  · cases h; assumption
  · cases h

/-- Everything an engine step can do when it answers a next state (R210 to R216). `s1` is the state the
selector was read in, `s` where it runs; they agree on NEXT and RND. -/
theorem engine_cases {s1 s t : State} {i : Instr} (hd : decodeSel s1.sel = some i)
    (h : exec i s = .next t) :
    (s1.rnd.toNat < 64 ∧ s1.nxt ≠ 3#2 ∧ t = s.round (BitVec.ofNat 6 s1.rnd.toNat)) ∨
    (s1.rnd = 64#7 ∧ s1.nxt = 0#2 ∧
      t = { s.accumulate with rnd := 0#7, bcnt := 0#7, phase := .absorb }) ∨
    (s1.rnd = 64#7 ∧ s1.nxt = 1#2 ∧
      t = { (s.setChain (s.chainQuad.add s.work)).setWork (s.chainQuad.add s.work) with
            mbuf := padBlock s.mbuf s.len, rnd := 0#7, nxt := 2#2 }) ∨
    (s1.rnd = 64#7 ∧ s1.nxt = 2#2 ∧ t = { s.accumulate with rnd := 0#7, phase := .done }) := by
  have hc := decodeSel_cases s1.nxt s1.rnd
  change decodeSel (s1.nxt ++ s1.rnd) = some i at hd
  rcases hc with ⟨hr, _⟩ | ⟨hr, hn, hs⟩ | ⟨hr, hn, hs⟩ | ⟨hr, hn, hs⟩ | ⟨hs, _⟩
  · left
    rw [exec_of_sel_round hr hd] at h
    by_cases hn : s1.nxt = 3#2
    · rw [hn, selectedRound_illegal] at h; cases h
    · rw [selectedRound_legal hn] at h; cases h; exact ⟨hr, hn, rfl⟩
  · rw [hs] at hd; cases hd; cases h; exact .inr (.inl ⟨hr, hn, rfl⟩)
  · rw [hs] at hd; cases hd; cases h; exact .inr (.inr (.inl ⟨hr, hn, rfl⟩))
  · rw [hs] at hd; cases hd; cases h; exact .inr (.inr (.inr ⟨hr, hn, rfl⟩))
  · rw [hs] at hd; cases hd

/-- In RUN with a selector of R106 the engine's step answers a next state: no step of it faults. -/
theorem engine_progress {s1 s : State} (hr : s1.rnd.toNat ≤ 64) (hn : s1.nxt ≠ 3#2) :
    ∃ i t, decodeSel s1.sel = some i ∧ exec i s = .next t := by
  rcases decodeSel_cases s1.nxt s1.rnd with ⟨h, i, hi⟩ | ⟨_, _, hs⟩ | ⟨_, _, hs⟩ | ⟨_, _, hs⟩ | ⟨_, h⟩
  · exact ⟨i, _, hi, by rw [exec_of_sel_round h hi, selectedRound_legal hn]⟩
  · exact ⟨_, _, hs, rfl⟩
  · exact ⟨_, _, hs, rfl⟩
  · exact ⟨_, _, hs, rfl⟩
  · rcases h with h | h
    · omega
    · exact absurd h hn

/-! ### The host's step -/

/-- Everything a bus operation can be (R132 to R145). -/
theorem decodeBus_cases (req : BitVec 5) (w : Word) :
    (∃ read : State → Word, ∀ s, exec (decodeBus req w) s = .next (s.answer (read s))) ∨
    (∀ s, exec (decodeBus req w) s = .next s) ∨
    (∀ s : State, exec (decodeBus req w) s = .next { s with ie := w.getLsbD 0 }) ∨
    (∀ s : State, exec (decodeBus req w) s = .next { s with data := w }) ∨
    decodeBus req w = .wrCmd w := by
  generalize hi : decodeBus req w = i
  unfold decodeBus at hi
  split at hi
  · unfold decodeWrite at hi
    repeat' split at hi
    all_goals subst hi
    all_goals first
      | exact .inr (.inr (.inr (.inr rfl)))
      | exact .inr (.inl fun _ => rfl)
      | exact .inr (.inr (.inl fun _ => rfl))
      | exact .inr (.inr (.inr (.inl fun _ => rfl)))
  · unfold decodeRead at hi
    repeat' split at hi
    all_goals subst hi; exact .inl ⟨_, fun _ => rfl⟩

/-- A bus operation that is no CMD write starts no command. -/
theorem commandOf_decodeBus (req : BitVec 5) (w : Word) :
    commandOf (decodeBus req w) = none ∨ decodeBus req w = .wrCmd w := by
  unfold decodeBus
  split
  · unfold decodeWrite
    repeat' split
    all_goals first | exact .inr rfl | exact .inl rfl
  · unfold decodeRead
    repeat' split
    all_goals exact .inl rfl

/-- A command a CMD write starts is the one its word decodes to. -/
theorem exec_of_commandOf {i : Instr} {c : Command} (h : commandOf i = some c) (s : State) :
    exec i s = exec c.instr s := by
  cases i <;> simp only [commandOf, reduceCtorEq, Option.some.injEq] at h
  case wrCmd v => exact execWrCmd_legal h s
  all_goals subst h; rfl

/-- A fetched instruction comes from the engine's selector in RUN, or from a bus request. -/
theorem fetch_instr {s s1 : State} {i : Instr} (h : fetch s = .instr i s1) :
    (∃ ts, s1 = { s with turns := ts } ∧ s.phase = .run ∧ decodeSel s.sel = some i) ∨
    (∃ ts req w, s1 = { s with turns := ts, rdata := none } ∧ i = decodeBus req w) := by
  unfold fetch at h
  split at h
  · obtain ⟨rfl, hp, hd⟩ := fetchEngine_instr h
    exact .inl ⟨s1.turns, rfl, hp, hd⟩
  · obtain ⟨rfl, hp, hd⟩ := fetchEngine_instr h
    exact .inl ⟨_, rfl, hp, hd⟩
  · unfold fetchBus at h; cases h; exact .inr ⟨_, _, _, rfl, rfl⟩
  · unfold fetchAccess at h
    split at h
    · split at h
      · split at h
        · unfold fetchBus at h; cases h; exact .inr ⟨_, _, _, rfl, rfl⟩
        · unfold fetchBus at h; cases h; exact .inr ⟨_, _, _, rfl, rfl⟩
      · cases h
    · cases h
  · cases h

/-- An idle turn spends the turn and changes nothing else; the engine was not in RUN. -/
theorem fetch_idle {s t : State} (h : fetch s = .idle t) :
    ∃ ts, t = { s with turns := ts } ∧ s.phase ≠ .run := by
  have key : ∀ {u v : State}, fetchEngine u = .idle v → v = u ∧ u.phase ≠ .run := by
    intro u v h
    unfold fetchEngine at h
    split at h
    · split at h <;> cases h
    · rename_i hp; cases h; exact ⟨rfl, hp⟩
  unfold fetch at h
  split at h
  · obtain ⟨rfl, hp⟩ := key h; exact ⟨t.turns, rfl, hp⟩
  · obtain ⟨rfl, hp⟩ := key h; exact ⟨_, rfl, hp⟩
  · unfold fetchBus at h; cases h
  · unfold fetchAccess fetchBus at h
    split at h
    · split at h
      · split at h <;> cases h
      · cases h
    · cases h
  · cases h

/-- A reset turn leads to the reset state with the remaining turns (R341). -/
theorem fetch_reset {s t : State} (h : fetch s = .reset t) :
    ∃ ts, t = { State.reset with turns := ts } := by
  have key : ∀ {u v : State}, fetchEngine u ≠ .reset v := by
    intro u v h
    unfold fetchEngine at h
    split at h
    · split at h <;> cases h
    · cases h
  unfold fetch at h
  split at h
  · exact absurd h key
  · exact absurd h key
  · unfold fetchBus at h; cases h
  · unfold fetchAccess fetchBus at h
    split at h
    · split at h
      · split at h <;> cases h
      · cases h
    · cases h
  · rename_i ts _; cases h; exact ⟨ts, rfl⟩

/-- A fetch faults only in RUN, at a selector that is no encoding (R109). -/
theorem fetch_fault {s : State} {f : Fault} (h : fetch s = .fault f) :
    f = .unreachableSelector ∧ s.phase = .run ∧ decodeSel s.sel = none := by
  have key : ∀ {u : State}, fetchEngine u = .fault f →
      f = .unreachableSelector ∧ u.phase = .run ∧ decodeSel u.sel = none := by
    intro u h
    unfold fetchEngine at h
    split at h
    · rename_i hp
      split at h
      · cases h
      · rename_i hd; cases h; exact ⟨rfl, hp, hd⟩
    · cases h
  unfold fetch at h
  split at h
  · exact key h
  · have hk := key h; exact hk
  · unfold fetchBus at h; cases h
  · unfold fetchAccess fetchBus at h
    split at h
    · split at h
      · split at h <;> cases h
      · cases h
    · cases h
  · cases h

end Sys2Proof.Machine
end

