-- ==== Sys2Proof/Laws/Run.lean ====
section
/-! SUPPORT. Everything a host instruction can do when it answers a next state, and runs of several
engine steps: the 64 rounds of a block, and the accumulation that ends it (R218). -/

namespace Sys2Proof.Machine

/-! ### One host instruction -/

/-- Everything a bus operation that is no CMD write can do. -/
theorem bus_next (req : BitVec 5) (w : Word) {s t : State} (h : exec (decodeBus req w) s = .next t) :
    (∃ v, t = s.answer v) ∨ t = s ∨ (∃ x, t = { s with ie := x }) ∨ (∃ x, t = { s with data := x }) ∨
      decodeBus req w = .wrCmd w := by
  rcases decodeBus_cases req w with ⟨r, h1⟩ | h1 | h1 | h1 | h1
  · rw [h1] at h; cases h; exact .inl ⟨_, rfl⟩
  · rw [h1] at h; cases h; exact .inr (.inl rfl)
  · rw [h1] at h; cases h; exact .inr (.inr (.inl ⟨_, rfl⟩))
  · rw [h1] at h; cases h; exact .inr (.inr (.inr (.inl ⟨_, rfl⟩)))
  · exact .inr (.inr (.inr (.inr h1)))

/-- Everything a command can do: nothing, INIT, one error, an accepted PUSH or an accepted FINAL. -/
theorem command_next (c : Command) {s t : State} (h : exec c.instr s = .next t) :
    t = s ∨ (c = .init ∧ execInit s = .next t) ∨ (s.err = false ∧ ∃ e, t = s.raiseCmdError e) ∨
    (s.err = false ∧ s.phase = .absorb ∧ c = .push ∧ s.bcnt.toNat + 4 ≤ 64 ∧ t = s.pushed) ∨
    (s.err = false ∧ s.phase = .absorb ∧ ∃ n, c = .final n ∧ s.bcnt.toNat + n.toNat < 64 ∧
      t = s.finalised n) := by
  cases c with
  | nop => cases h; exact .inl rfl
  | init => exact .inr (.inl ⟨rfl, h⟩)
  | push =>
    rcases execPush_next h with ⟨_, rfl⟩ | ⟨he, _, rfl⟩ | ⟨he, _, rfl⟩ | ⟨he, hp, hb, rfl⟩
    · exact .inl rfl
    · exact .inr (.inr (.inl ⟨he, _, rfl⟩))
    · exact .inr (.inr (.inl ⟨he, _, rfl⟩))
    · exact .inr (.inr (.inr (.inl ⟨he, hp, rfl, hb, rfl⟩)))
  | final n =>
    rcases execFinal_next h with ⟨_, rfl⟩ | ⟨he, _, rfl⟩ | ⟨he, _, rfl⟩ | ⟨he, hp, hb, rfl⟩
    · exact .inl rfl
    · exact .inr (.inr (.inl ⟨he, _, rfl⟩))
    · exact .inr (.inr (.inl ⟨he, _, rfl⟩))
    · exact .inr (.inr (.inr (.inr ⟨he, hp, n, rfl, hb, rfl⟩)))

/-! ### Steps of the engine with no turn before them -/

/-- In RUN with a round's selector, a step is that round (R204). -/
theorem step_round {s : State} (hp : s.phase = .run) (ht : s.turns = []) (hr : s.rnd.toNat < 64)
    (hn : s.nxt ≠ 3#2) : step s = .next (s.round (BitVec.ofNat 6 s.rnd.toNat)) := by
  obtain ⟨i, t, hd, hx⟩ := engine_progress (s1 := s) (s := s) (by omega) hn
  rw [step_of_instr (i := i) (s1 := s) (by rw [fetch, ht]; exact fetchEngine_of_sel hp hd)]
  rw [exec_of_sel_round hr hd, selectedRound_legal hn]

/-- In RUN a step is the instruction that SEL decodes to (R217). -/
theorem step_sel {s : State} (hp : s.phase = .run) (ht : s.turns = []) {i : Instr}
    (hd : decodeSel s.sel = some i) : step s = exec i s := by
  rw [step_of_instr (i := i) (s1 := s) (by rw [fetch, ht]; exact fetchEngine_of_sel hp hd)]

theorem steps_add (a b : Nat) (s : State) {t : State} (h : steps a s = .next t) :
    steps (a + b) s = steps b t := by
  induction a generalizing s with
  | zero => cases h; simp
  | succ a ih =>
    rw [Nat.add_right_comm]
    simp only [steps] at h ⊢
    cases hs : step s with
    | next u => rw [hs] at h; exact ih u h
    | fault f => rw [hs] at h; cases h
    | refused f => rw [hs] at h; cases h

theorem steps_one (s : State) : steps 1 s = step s := by
  rw [steps]; cases step s <;> rfl

theorem steps_then {k : Nat} {s u : State} {o : Host.Outcome State Fault Refusal}
    (h : steps k s = .next u) (hs : step u = o) : steps (k + 1) s = o := by
  rw [steps_add k 1 s h, steps_one, hs]

theorem steps_twice (k : Nat) {s t : State} {o : Host.Outcome State Fault Refusal}
    (h : steps k s = .next t) (h2 : steps k t = o) : steps (k + k) s = o := by
  rw [steps_add k k s h, h2]

/-- The first k rounds of a block (R218). -/
theorem steps_rounds {s : State} (hp : s.phase = .run) (ht : s.turns = []) (h0 : s.rnd = 0#7)
    (hn : s.nxt ≠ 3#2) (k : Nat) (hk : k ≤ 64) :
    steps k s =
      .next { s.setWork (rounds (Memory.word s.mbuf) k s.work) with rnd := BitVec.ofNat 7 k } := by
  induction k with
  | zero => cases s; simp at h0; subst h0; rfl
  | succ k ih =>
    rw [steps_add k 1 s (ih (by omega)), steps,
      step_round (by exact hp) (by exact ht) (by simp; omega) (by exact hn)]
    have e : (BitVec.ofNat 7 k).toNat = k := by simp; omega
    have e2 : (BitVec.ofNat 6 k).setWidth 7 + 1#7 = BitVec.ofNat 7 (k + 1) := by
      apply BitVec.eq_of_toNat_eq; simp; omega
    simp only [steps, e, State.round, e2]
    rfl

/-- The rounds of a block and the step after them, with their number k = 64 kept as a variable so that
the kernel never unfolds the rounds. -/
theorem steps_block_var {s : State} (hp : s.phase = .run) (ht : s.turns = []) (h0 : s.rnd = 0#7)
    (hn : s.nxt ≠ 3#2) {i : Instr} (hd : decodeSel (s.nxt ++ 64#7) = some i) (k : Nat) (hk : k = 64) :
    steps (k + 1) s =
      exec i { s.setWork (rounds (Memory.word s.mbuf) k s.work) with rnd := BitVec.ofNat 7 k } := by
  have h := steps_rounds hp ht h0 hn k (by omega)
  revert h
  generalize rounds (Memory.word s.mbuf) k s.work = w
  intro h
  have h2 : step { s.setWork w with rnd := BitVec.ofNat 7 k } =
      exec i { s.setWork w with rnd := BitVec.ofNat 7 k } := by
    subst hk
    exact step_sel (s := { s.setWork w with rnd := 64#7 }) hp ht hd
  exact steps_then h h2

theorem steps_block_succ {s : State} (hp : s.phase = .run) (ht : s.turns = []) (h0 : s.rnd = 0#7)
    (hn : s.nxt ≠ 3#2) {i : Instr} (hd : decodeSel (s.nxt ++ 64#7) = some i) :
    steps (64 + 1) s =
      exec i { s.setWork (rounds (Memory.word s.mbuf) 64 s.work) with rnd := BitVec.ofNat 7 64 } :=
  steps_block_var hp ht h0 hn hd 64 rfl

/-- A block is 65 steps: 64 rounds and the accumulation that NEXT names (R218). -/
theorem steps_block {s : State} (hp : s.phase = .run) (ht : s.turns = []) (h0 : s.rnd = 0#7)
    (hn : s.nxt ≠ 3#2) {i : Instr} (hd : decodeSel (s.nxt ++ 64#7) = some i) :
    steps 65 s =
      exec i { s.setWork (rounds (Memory.word s.mbuf) 64 s.work) with rnd := 64#7 } :=
  steps_block_succ hp ht h0 hn hd

/-- The accumulation that NEXT names at RND = 64 (R106). -/
theorem decodeSel_accum (n : BitVec 2) :
    decodeSel (n ++ 64#7) =
      if n = 0#2 then some .accumCont else if n = 1#2 then some .accumPad2
      else if n = 2#2 then some .accumLast else none := by
  revert n; decide

/-! ### The end of a block, for any working words -/

theorem accumCont_next (s : State) (w : Quad) (r : BitVec 7) :
    ∃ t, exec .accumCont { s.setWork w with rnd := r } = .next t ∧ t.phase = .absorb ∧
      t.chainQuad = s.chainQuad.add w := ⟨_, rfl, rfl, rfl⟩

theorem accumLast_next (s : State) (w : Quad) (r : BitVec 7) :
    ∃ t, exec .accumLast { s.setWork w with rnd := r } = .next t ∧ t.phase = .done ∧
      t.chainQuad = s.chainQuad.add w := ⟨_, rfl, rfl, rfl⟩

theorem accumPad2_next (s : State) (w : Quad) (r : BitVec 7) :
    ∃ t, exec .accumPad2 { s.setWork w with rnd := r } = .next t ∧ t.phase = s.phase ∧ t.nxt = 2#2 ∧
      t.rnd = 0#7 ∧ t.chainQuad = s.chainQuad.add w ∧ t.work = t.chainQuad ∧ t.turns = s.turns :=
  ⟨_, rfl, rfl, rfl, rfl, rfl, rfl, rfl⟩

end Sys2Proof.Machine
end

