-- ==== Sys2Proof/Laws/Invariant.lean ====
section
/-! SUPPORT. The invariant of R51 under each shared update of the state. -/

namespace Sys2Proof.Machine

/-- The invariant says nothing of the model's own fields. -/
theorem EngineInv.withHost {s : State} (h : EngineInv s) (ts : List Turn) (r : Option Word) :
    EngineInv { s with turns := ts, rdata := r } :=
  ⟨h.1, h.2, h.3, fun hp => by have := h.4 hp; revert this; cases s; simp, h.5, h.6, h.7, h.8, h.9,
    h.10, h.11⟩

theorem EngineInv.withIe {s : State} (h : EngineInv s) (x : Bool) : EngineInv { s with ie := x } :=
  ⟨h.1, h.2, h.3, fun hp => by have := h.4 hp; revert this; cases s; simp, h.5, h.6, h.7, h.8, h.9,
    h.10, h.11⟩

theorem EngineInv.withData {s : State} (h : EngineInv s) (x : Word) : EngineInv { s with data := x } :=
  ⟨h.1, h.2, h.3, fun hp => by have := h.4 hp; revert this; cases s; simp, h.5, h.6, h.7, h.8, h.9,
    h.10, h.11⟩

theorem EngineInv.raiseCmdError {s : State} (h : EngineInv s) (he : s.err = false) (e : CmdError) :
    EngineInv (s.raiseCmdError e) := by
  rw [raiseCmdError_of_clear _ _ he]
  exact ⟨h.1, h.2, h.3, fun hp => by have := h.4 hp; revert this; cases s; simp, h.5, h.6, h.7, h.8, h.9,
    by cases e <;> simp [CmdError.code, errNone], by cases e <;> simp [CmdError.code]⟩

theorem EngineInv.ofReset (ts : List Turn) : EngineInv { State.reset with turns := ts } := by
  constructor <;> first | rfl | simp [State.reset, errNone]

theorem EngineInv.ofInit {s t : State} (h : execInit s = .next t) : EngineInv t := by
  cases h
  constructor <;> first | rfl | simp [State.clearError, errNone, BlockNext.bits]

/-- An accepted PUSH keeps the invariant (R149, R51). -/
theorem EngineInv.pushed {s : State} (h : EngineInv s) (hp : s.phase = .absorb)
    (hb : s.bcnt.toNat + 4 ≤ 64) : EngineInv s.pushed := by
  have h2 := h.2 hp
  have hwf : Memory.wf (Memory.writeBytes s.mbuf s.bcnt.toNat (dataLanes s.data 4)) = true :=
    Memory.wf_writeBytes h.1 (by rw [dataLanes_length _ (by decide)]; exact hb)
  have h8 := h.8 hp
  have hl : (s.len + 32#64).toNat % 512 = (8 * (s.bcnt.toNat + 4)) % 512 := by
    rw [BitVec.toNat_add]; simp; omega
  unfold State.pushed
  split
  · rename_i hf
    constructor <;> simp [State.startBlock]
    · exact hwf
    · rw [BitVec.toNat_add] at hl; simp at hl; omega
    · exact h.10
    · exact h.11
  · rename_i hf
    have hbn : (s.bcnt + 4#7).toNat = s.bcnt.toNat + 4 := by rw [BitVec.toNat_add]; simp; omega
    constructor
    · exact hwf
    · intro _; simp only [hbn]; omega
    · simp [hp]
    · simp [hp]
    · exact h.5
    · exact h.6
    · exact h.7
    · intro _; simp only [hl, hbn]; omega
    · simp [hp]
    · exact h.10
    · exact h.11

/-- An accepted FINAL keeps the invariant (R150, R51). -/
theorem EngineInv.finalised {s : State} (h : EngineInv s) (n : BitVec 2)
    (hb : s.bcnt.toNat + n.toNat < 64) : EngineInv (s.finalised n) := by
  have hwf : Memory.wf (Memory.writeBytes s.mbuf s.bcnt.toNat (dataLanes s.data n.toNat)) = true :=
    Memory.wf_writeBytes h.1 (by rw [dataLanes_length _ (by omega)]; omega)
  have hn : (padNext (s.bcnt.toNat + n.toNat)).bits ≠ 0#2 ∧
      (padNext (s.bcnt.toNat + n.toNat)).bits ≠ 3#2 := by
    unfold padNext; split <;> decide
  unfold State.finalised
  constructor <;> simp [State.startBlock]
  · exact wf_padFinal hwf hb
  · exact hn.2
  · exact fun h => absurd h hn.1
  · exact h.10
  · exact h.11

end Sys2Proof.Machine
end

