-- ==== Sys2Proof/Laws/PerInstr.lean ====
section
/-! SUPPORT. Statements made per instruction: decoding the encoding of an instruction gives it back. -/

namespace Sys2Proof.Laws.RoundTrip

/-- Decoding the encoding of a well-formed instruction gives it back. -/
def Statement (i : Instr) : Prop := i.wf = true → decode (encode i) = .ok i

theorem rdId : Statement .rdId := fun _ => by decide
theorem rdCtrl : Statement .rdCtrl := fun _ => by decide
theorem rdStatus : Statement .rdStatus := fun _ => by decide
theorem rdCmd : Statement .rdCmd := fun _ => by decide
theorem rdData : Statement .rdData := fun _ => by decide
theorem rdLenLo : Statement .rdLenLo := fun _ => by decide
theorem rdLenHi : Statement .rdLenHi := fun _ => by decide
theorem rdRsv7 : Statement .rdRsv7 := fun _ => by decide
theorem rdDigest (k : BitVec 2) : Statement (.rdDigest k) := fun _ => by revert k; decide
theorem rdRsvHigh (k : BitVec 2) : Statement (.rdRsvHigh k) := fun _ => by revert k; decide
theorem wrRoId (v : Word) : Statement (.wrRoId v) := fun _ => rfl
theorem wrCtrl (v : Word) : Statement (.wrCtrl v) := fun _ => rfl
theorem wrRoStatus (v : Word) : Statement (.wrRoStatus v) := fun _ => rfl
theorem wrCmd (v : Word) : Statement (.wrCmd v) := fun _ => rfl
theorem wrData (v : Word) : Statement (.wrData v) := fun _ => rfl
theorem wrRoLenLo (v : Word) : Statement (.wrRoLenLo v) := fun _ => rfl
theorem wrRoLenHi (v : Word) : Statement (.wrRoLenHi v) := fun _ => rfl
theorem wrRsv7 (v : Word) : Statement (.wrRsv7 v) := fun _ => rfl
theorem wrRoDigest (k : BitVec 2) (v : Word) : Statement (.wrRoDigest k v) := fun _ => by
  have h : ∀ k : BitVec 2, k = 0#2 ∨ k = 1#2 ∨ k = 2#2 ∨ k = 3#2 := by decide
  rcases h k with rfl | rfl | rfl | rfl <;> rfl
theorem wrRsvHigh (k : BitVec 2) (v : Word) : Statement (.wrRsvHigh k v) := fun _ => by
  have h : ∀ k : BitVec 2, k = 0#2 ∨ k = 1#2 ∨ k = 2#2 ∨ k = 3#2 := by decide
  rcases h k with rfl | rfl | rfl | rfl <;> rfl
theorem nop : Statement .nop := fun _ => by decide
theorem init : Statement .init := fun _ => by decide
theorem push : Statement .push := fun _ => by decide
theorem final (t : BitVec 2) : Statement (.final t) := fun _ => by revert t; decide
theorem roundF (n : BitVec 2) (j : BitVec 4) : Statement (.roundF n j) := fun _ => by revert n j; decide
theorem roundG (n : BitVec 2) (j : BitVec 4) : Statement (.roundG n j) := fun _ => by revert n j; decide
theorem roundH (n : BitVec 2) (j : BitVec 4) : Statement (.roundH n j) := fun _ => by revert n j; decide
theorem roundI (n : BitVec 2) (j : BitVec 4) : Statement (.roundI n j) := fun _ => by revert n j; decide
theorem accumCont : Statement .accumCont := fun _ => by decide
theorem accumPad2 : Statement .accumPad2 := fun _ => by decide
theorem accumLast : Statement .accumLast := fun _ => by decide

end Sys2Proof.Laws.RoundTrip
end

