-- ==== Sys2Proof/Laws/Session.lean ====
section
/-! SUPPORT. A session (R131) under each thing that can happen to it: a change it does not read, a round,
an accumulation, an accepted PUSH and an accepted FINAL. -/

namespace Sys2Proof.Machine

/-- A session reads LEN, PHASE, BCNT, MBUF, H, NEXT, RND and A..D only. -/
theorem Session.congr {s t : State} {m : List Byte} (h : Session s m) (h1 : t.len = s.len)
    (h2 : t.phase = s.phase) (h3 : t.bcnt = s.bcnt) (h4 : t.mbuf = s.mbuf) (h5 : t.chainQuad = s.chainQuad)
    (h6 : t.nxt = s.nxt) (h7 : t.rnd = s.rnd) (h8 : t.work = s.work) : Session t m := by
  have hc : ∀ {p k}, Compressing s p k → Compressing t p k := fun h =>
    ⟨h4 ▸ h.1, h.2, h5 ▸ h.3, by rw [h8, h7, h5]; exact h.4, h7 ▸ h.5⟩
  refine ⟨h1 ▸ h.1, ?_⟩
  have hh := h.2
  rw [h2]
  revert hh
  cases s.phase
  · exact id
  · simp only [h3, h4, h5]; exact id
  · simp only [h6]
    rintro ⟨k, ⟨a, b, c⟩ | ⟨a, b, c⟩ | ⟨a, b, c⟩⟩
    · exact ⟨k, .inl ⟨a, hc b, c⟩⟩
    · exact ⟨k, .inr (.inl ⟨a, hc b, c⟩)⟩
    · exact ⟨k, .inr (.inr ⟨a, hc b, c⟩)⟩
  · simp only [h5]; exact id

/-- One round more of the block (R204). -/
theorem compressing_round {s : State} {p : List Byte} {k : Nat} (h : Compressing s p k)
    (hr : s.rnd.toNat < 64) :
   Compressing (s.round (BitVec.ofNat 6 s.rnd.toNat)) p k := by
  have hb : (messageBlock p k).length = 64 := by rw [messageBlock_length]; have := h.2; omega
  have hr' : (s.round (BitVec.ofNat 6 s.rnd.toNat)).rnd.toNat = s.rnd.toNat + 1 := by
    rw [round_rnd, BitVec.toNat_add]; simp; omega
  refine ⟨h.1, h.2, h.3, ?_, by omega⟩
  rw [round_work, hr', rounds, word_of_mbufHolds h.1 hb, h.4]; rfl

/-- The accumulation after 64 rounds is the chaining value after the block (R209). -/
theorem compressing_end {s : State} {p : List Byte} {k : Nat} (h : Compressing s p k) (hr : s.rnd = 64#7) :
   s.chainQuad.add s.work = chainAfter p (k+1) := by
  rw [h.4, hr, chainAfter, ← h.3]; rfl

/-- An engine step stays in the session (R210 to R216). -/
theorem session_engine {s s1 t : State} {i : Instr} {m : List Byte} (h : Session s m) (hp : s.phase = .run)
    (hd : decodeSel s1.sel = some i) (e1 : s1.nxt = s.nxt) (e2 : s1.rnd = s.rnd) (hx : exec i s = .next t) :
    Session t m := by
  obtain ⟨hl, hh⟩ := h
  rw [hp] at hh
  have hpl := padMessage_length m
  obtain ⟨k, hh⟩ := hh
  rcases engine_cases hd hx with ⟨hr, hn, rfl⟩ | ⟨hr, hn, rfl⟩ | ⟨hr, hn, rfl⟩ | ⟨hr, hn, rfl⟩ <;>
    rw [e2] at hr <;> rw [e1] at hn
  · rw [e2]
    refine ⟨hl, ?_⟩
    rw [round_phase, hp]
    refine ⟨k, ?_⟩
    rcases hh with ⟨a, b, c⟩ | ⟨a, b, c⟩ | ⟨a, b, c⟩
    · exact .inl ⟨a, compressing_round b hr, c⟩
    · exact .inr (.inl ⟨a, compressing_round b hr, c⟩)
    · exact .inr (.inr ⟨a, compressing_round b hr, c⟩)
  · rcases hh with ⟨a, b, c⟩ | ⟨a, b, c⟩ | ⟨a, b, c⟩
    · refine ⟨hl, ?_⟩
      have e : m.length / 64 = k + 1 := by omega
      refine ⟨by omega, by simp; omega, ?_, ?_⟩
      · intro p hp; rw [messageBlock_length] at hp; omega
      · rw [e]; exact compressing_end b hr
    · rw [hn] at a; simp [BlockNext.bits] at a
    · rw [hn] at a; simp [BlockNext.bits] at a
  · rcases hh with ⟨a, b, c⟩ | ⟨a, b, c⟩ | ⟨a, b, c, d⟩
    · rw [hn] at a; simp [BlockNext.bits] at a
    · rw [hn] at a; simp [BlockNext.bits] at a
    · refine ⟨hl, ?_⟩
      simp only [setWork_phase, setChain_phase, hp]
      refine ⟨k + 1, .inr (.inl ⟨rfl, ⟨?_, by omega, ?_, rfl, by simp⟩, by omega⟩)⟩
      · intro q hq
        rw [messageBlock_length] at hq
        rw [read_padBlock, messageBlock_getD, padMessage_getD]
        have h64 : q < 64 := by omega
        have h1 : ¬ 64 * (k + 1) + q < m.length := by omega
        have h2 : ¬ 64 * (k + 1) + q = m.length := by omega
        simp only [h64, if_true, h1, h2, if_false, hl]
        by_cases h5 : q < 56
        · have h3 : 64 * (k + 1) + q < (padMessage m).length - 8 := by omega
          simp only [h5, h3, if_true]
        · have h3 : ¬ 64 * (k + 1) + q < (padMessage m).length - 8 := by omega
          simp only [h5, h3, if_false]; congr 1; omega
      · exact compressing_end b hr
  · rcases hh with ⟨a, b, c⟩ | ⟨a, b, c⟩ | ⟨a, b, c, d⟩
    · rw [hn] at a; simp [BlockNext.bits] at a
    · refine ⟨hl, ?_⟩
      have e : (padMessage m).length / 64 = k + 1 := by omega
      show s.chainQuad.add s.work = _
      rw [e]; exact compressing_end b hr
    · rw [hn] at a; simp [BlockNext.bits] at a

/-- An accepted PUSH appends the four lanes of DATA (R149). -/
theorem session_push {s : State} {m : List Byte} (h : Session s m) (hp : s.phase = .absorb)
    (hb : s.bcnt.toNat + 4 ≤ 64) : Session s.pushed (m ++ dataLanes s.data 4) := by
  obtain ⟨hl, hh⟩ := h
  rw [hp] at hh
  obtain ⟨h4, hb1, hbuf, hch⟩ := hh
  have hlen : (m ++ dataLanes s.data 4).length = m.length + 4 := by simp [dataLanes_length]
  have hlen2 : s.len + 32#64 = BitVec.ofNat 64 (8 * (m ++ dataLanes s.data 4).length) := by
    rw [hl, hlen]; exact lenBits_add m.length 4
  have hbuf' : mbufHolds (Memory.writeBytes s.mbuf s.bcnt.toNat (dataLanes s.data 4))
      (messageBlock (m ++ dataLanes s.data 4) (m.length / 64)) := by
    intro q hq
    rw [messageBlock_length, hlen] at hq
    rw [Memory.read_writeBytes, messageBlock_getD, if_pos (by omega : q < 64), dataLanes_length _ (by decide)]
    by_cases h1 : q < s.bcnt.toNat
    · rw [if_neg (by omega), List.getD_append _ _ _ _ (by omega)]
      have := hbuf q (by rw [messageBlock_length]; omega)
      rw [this, messageBlock_getD, if_pos (by omega)]
    · rw [if_pos (by omega), List.getD_append_right _ _ _ _ (by omega)]; congr 1; omega
  unfold State.pushed
  split
  · rename_i hf
    refine ⟨hlen2, m.length / 64, .inl ⟨rfl, ⟨hbuf', by omega, ?_, rfl, by simp⟩, by omega⟩⟩
    rw [chainAfter_append _ _ (by omega)]; exact hch
  · rename_i hf
    have hbn : (s.bcnt + 4#7).toNat = s.bcnt.toNat + 4 := by rw [BitVec.toNat_add]; simp; omega
    have e : (m.length + 4) / 64 = m.length / 64 := by omega
    refine ⟨hlen2, ?_⟩
    simp only [hp, hlen, e, hbn]
    refine ⟨by omega, by omega, hbuf', ?_⟩
    rw [chainAfter_append _ _ (by omega)]; exact hch

/-- An accepted FINAL appends its tail and starts the last block, or the one before it (R150, R172). -/
theorem session_final {s : State} {m : List Byte} (h : Session s m) (n : BitVec 2) (hp : s.phase = .absorb)
    (hb : s.bcnt.toNat + n.toNat < 64) : Session (s.finalised n) (m ++ dataLanes s.data n.toNat) := by
  obtain ⟨hl, hh⟩ := h
  rw [hp] at hh
  obtain ⟨h4, hb1, hbuf, hch⟩ := hh
  have hdl : (dataLanes s.data n.toNat).length = n.toNat := dataLanes_length _ (by omega)
  generalize hm' : m ++ dataLanes s.data n.toNat = m'
  have hlen : m'.length = m.length + n.toNat := by rw [← hm']; simp [hdl]
  have hlen2 : s.len + BitVec.ofNat 64 (8 * n.toNat) = BitVec.ofNat 64 (8 * m'.length) := by
    rw [hl, hlen]; exact lenBits_add m.length n.toNat
  have hpl := padMessage_length m'
  have hc : (s.finalised n).chainQuad = chainAfter (padMessage m') (m.length / 64) := by
    rw [padMessage, List.append_assoc, List.append_assoc, ← hm', List.append_assoc,
      chainAfter_append _ _ (by omega)]
    exact hch
  have hbuf' : mbufHolds (s.finalised n).mbuf (messageBlock (padMessage m') (m.length / 64)) := by
    intro q hq
    rw [messageBlock_length] at hq
    have hq : q < 64 := by omega
    show Memory.read (padFinal _ _ _) q = _
    rw [read_padFinal _ _ _ hb, hlen2, messageBlock_getD, if_pos hq, padMessage_getD,
      Memory.read_writeBytes, hdl]
    by_cases h1 : q < s.bcnt.toNat
    · rw [if_pos (by omega), if_neg (by omega), if_pos (by omega), ← hm',
        List.getD_append _ _ _ _ (by omega)]
      have := hbuf q (by rw [messageBlock_length]; omega)
      rw [this, messageBlock_getD, if_pos (by omega)]
    · by_cases h2 : q < s.bcnt.toNat + n.toNat
      · rw [if_pos (by omega), if_pos (by omega), if_pos (by omega), ← hm',
          List.getD_append_right _ _ _ _ (by omega)]
        congr 1; omega
      · rw [if_neg (by omega), if_neg (show ¬ (64 * (m.length/64) + q < m'.length) by omega)]
        by_cases h3 : q = s.bcnt.toNat + n.toNat
        · rw [if_pos h3, if_pos (by omega)]
        · rw [if_neg h3, if_neg (show ¬ (64 * (m.length/64) + q = m'.length) by omega)]
          by_cases h5 : s.bcnt.toNat + n.toNat ≤ 55 ∧ 56 ≤ q
          · rw [if_pos h5, if_neg (by omega)]; congr 1; omega
          · rw [if_neg h5, if_pos (by omega)]
  refine ⟨hlen2, m.length / 64, .inr ?_⟩
  show _ ∨ _
  by_cases h55 : s.bcnt.toNat + n.toNat ≤ 55
  · refine .inl ⟨by simp [State.finalised, padNext, h55],
      ⟨hbuf', by omega, hc, rfl, by simp [State.finalised]⟩, by omega⟩
  · refine .inr ⟨by simp [State.finalised, padNext, h55],
      ⟨hbuf', by omega, hc, rfl, by simp [State.finalised]⟩, by omega, by omega⟩

end Sys2Proof.Machine
end

