-- ==== Sys2Proof/Tests/Slice0.lean ====
section
/-! SUPPORT. The model's own tests. Expected values are the spec's: the opcode patterns of 30_encoding.md
and spec/opcode_table.json, the examples of the rules, and the vectors T<n> of 95_test_vectors.md. At the
end, one witness or more for every obligation that has hypotheses. -/

namespace Sys2Proof.Tests

open Sys2Proof.Machine

/-! ### Helpers -/

/-- The next state, if the outcome is one. -/
def next? : Host.Outcome State Fault Refusal → Option State
  | .next s => some s
  | .fault _ => none
  | .refused _ => none

/-- The fault, if the outcome is one. -/
def fault? : Host.Outcome State Fault Refusal → Option Fault
  | .next _ => none
  | .fault f => some f
  | .refused _ => none

/-- One field or view of the next state. -/
def after {α : Type} (o : Host.Outcome State Fault Refusal) (f : State → α) : Option α := (next? o).map f

/-- The state that INIT leaves from reset (T11), written out from R148. -/
def opened : State :=
  { State.reset with
    h0 := 0x67452301#32, h1 := 0xEFCDAB89#32, h2 := 0x98BADCFE#32, h3 := 0x10325476#32
    phase := .absorb }

/-- ABSORB with `n` bytes of the block counted; LEN as R51 has it. -/
def absorbing (n : BitVec 7) : State := { opened with bcnt := n, len := n.setWidth 64 <<< 3 }

/-- RUN with these working registers, RND and NEXT. -/
def running (a b c d : Word) (rnd : BitVec 7) (nxt : BitVec 2) : State :=
  { opened with a := a, b := b, c := c, d := d, rnd := rnd, nxt := nxt, phase := .run, bcnt := 64#7 }

/-- DONE with the digest words of the empty message (R216's example). -/
def hashed : State :=
  { State.reset with
    h0 := 0xD98C1DD4#32, h1 := 0x04B2008F#32, h2 := 0x980980E9#32, h3 := 0x7E42F8EC#32
    a := 0x7246FAD3#32, b := 0x14E45506#32, c := 0xFF4EA3EB#32, d := 0x6E10A476#32
    nxt := 2#2, mbuf := [(0, 0x80#8)], bcnt := 64#7, phase := .done }

/-- A state with this turn next. -/
def withTurn (s : State) (x : Turn) : State := { s with turns := [x] }

/-! ### Well-formedness: each check refuses an ill-formed instruction (R109) -/

theorem test_wf_roundF_next3 : (Instr.roundF 3#2 0#4).wf = false := by decide
theorem test_wf_roundG_next3 : (Instr.roundG 3#2 7#4).wf = false := by decide
theorem test_wf_roundH_next3 : (Instr.roundH 3#2 15#4).wf = false := by decide
theorem test_wf_roundI_next3 : (Instr.roundI 3#2 1#4).wf = false := by decide
theorem test_wf_next_field : (List.map nextFieldOk [0#2, 1#2, 2#2, 3#2]) = [true, true, true, false] := by
  decide
theorem test_wf_accepts : (Instr.roundI 2#2 15#4).wf = true ∧ (Instr.final 3#2).wf = true := by decide

/-! ### Decoding: a word written out from the spec's encoding for every constructor -/

theorem test_decode_reads :
    decode (.bus 0b00000#5 0#32) = .ok .rdId ∧ decode (.bus 0b00001#5 0#32) = .ok .rdCtrl ∧
    decode (.bus 0b00010#5 0#32) = .ok .rdStatus ∧ decode (.bus 0b00011#5 0#32) = .ok .rdCmd ∧
    decode (.bus 0b00100#5 0#32) = .ok .rdData ∧ decode (.bus 0b00101#5 0#32) = .ok .rdLenLo ∧
    decode (.bus 0b00110#5 0#32) = .ok .rdLenHi ∧ decode (.bus 0b00111#5 0#32) = .ok .rdRsv7 := by decide

theorem test_decode_read_fields :
    decode (.bus 0b01000#5 0#32) = .ok (.rdDigest 0#2) ∧ decode (.bus 0b01001#5 0#32) = .ok (.rdDigest 1#2) ∧
    decode (.bus 0b01011#5 0#32) = .ok (.rdDigest 3#2) ∧ decode (.bus 0b01100#5 0#32) = .ok (.rdRsvHigh 0#2) ∧
    decode (.bus 0b01111#5 0#32) = .ok (.rdRsvHigh 3#2) := by decide

theorem test_decode_writes :
    decode (.bus 0b10000#5 1#32) = .ok (.wrRoId 1#32) ∧ decode (.bus 0b10001#5 1#32) = .ok (.wrCtrl 1#32) ∧
    decode (.bus 0b10010#5 9#32) = .ok (.wrRoStatus 9#32) ∧ decode (.bus 0b10011#5 2#32) = .ok (.wrCmd 2#32) ∧
    decode (.bus 0b10100#5 0x64636261#32) = .ok (.wrData 0x64636261#32) ∧
    decode (.bus 0b10101#5 5#32) = .ok (.wrRoLenLo 5#32) ∧ decode (.bus 0b10110#5 5#32) = .ok (.wrRoLenHi 5#32) ∧
    decode (.bus 0b10111#5 0x12345678#32) = .ok (.wrRsv7 0x12345678#32) := by decide

theorem test_decode_write_fields :
    decode (.bus 0b11000#5 1#32) = .ok (.wrRoDigest 0#2 1#32) ∧
    decode (.bus 0b11010#5 1#32) = .ok (.wrRoDigest 2#2 1#32) ∧
    decode (.bus 0b11101#5 7#32) = .ok (.wrRsvHigh 1#2 7#32) ∧
    decode (.bus 0b11111#5 7#32) = .ok (.wrRsvHigh 3#2 7#32) := by decide

/-- R104: the seven legal words. -/
theorem test_decode_commands :
    decode (.cmd 0x00000000#32) = .ok .nop ∧ decode (.cmd 0x00000001#32) = .ok .init ∧
    decode (.cmd 0x00000002#32) = .ok .push ∧ decode (.cmd 0x00000003#32) = .ok (.final 0#2) ∧
    decode (.cmd 0x00000013#32) = .ok (.final 1#2) ∧ decode (.cmd 0x00000023#32) = .ok (.final 2#2) ∧
    decode (.cmd 0x00000033#32) = .ok (.final 3#2) := by decide

/-- T82: illegal words, one for each reserved field of R108. -/
theorem test_decode_illegal_commands :
    List.map (fun w => (decodeCmd w).isSome)
      [0x00000004#32, 0x0000000F#32, 0x00000010#32, 0x00000011#32, 0x00000012#32, 0x00000040#32,
       0x80000003#32, 0x00000043#32] = List.replicate 8 false ∧
    decode (.cmd 0x00000012#32) = .error .illegalCmd := by decide

/-- R106: NEXT, quarter and low part, at the first and last round of every quarter. -/
theorem test_decode_rounds :
    decode (.sel 0b00_000_0000#9) = .ok (.roundF 0#2 0#4) ∧ decode (.sel 0b01_000_1111#9) = .ok (.roundF 1#2 15#4) ∧
    decode (.sel 0b10_001_0000#9) = .ok (.roundG 2#2 0#4) ∧ decode (.sel 0b00_001_1111#9) = .ok (.roundG 0#2 15#4) ∧
    decode (.sel 0b01_010_0000#9) = .ok (.roundH 1#2 0#4) ∧ decode (.sel 0b00_010_1111#9) = .ok (.roundH 0#2 15#4) ∧
    decode (.sel 0b10_011_0000#9) = .ok (.roundI 2#2 0#4) ∧ decode (.sel 0b00_011_1111#9) = .ok (.roundI 0#2 15#4) := by
  decide

theorem test_decode_accums :
    decode (.sel 0b00_1000000#9) = .ok .accumCont ∧ decode (.sel 0b01_1000000#9) = .ok .accumPad2 ∧
    decode (.sel 0b10_1000000#9) = .ok .accumLast := by decide

/-- R109. -/
theorem test_decode_unreachable :
    decode (.sel 0b11_1000000#9) = .error .unreachableSelector ∧
    decode (.sel 0b00_1000001#9) = .error .unreachableSelector ∧
    decode (.sel 0b10_1111111#9) = .error .unreachableSelector := by decide

/-- Encoding, against the same patterns. -/
theorem test_encode :
    encode (.rdDigest 2#2) = .bus 0b01010#5 0#32 ∧ encode (.wrData 7#32) = .bus 0b10100#5 7#32 ∧
    encode (.wrRsvHigh 3#2 1#32) = .bus 0b11111#5 1#32 ∧ encode (.final 2#2) = .cmd 0x00000023#32 ∧
    encode (.roundG 1#2 5#4) = .sel 0b01_001_0101#9 ∧ encode .accumLast = .sel 0b10_1000000#9 := by decide

/-- The opcode table's words, with the operand word of a write zero, then with one given (log 4). -/
theorem test_table_words :
    decodeTableWord 8 0x08 = some (.rdDigest 0#2) ∧ decodeTableWord 8 0x13 = some (.wrCmd 0#32) ∧
    decodeTableWord 32 0x33 = some (.final 3#2) ∧ decodeTableWord 32 0x12 = none ∧
    decodeTableWord 16 0x10A = some (.roundF 2#2 10#4) ∧ decodeTableWord 16 0xC0 = some .accumPad2 ∧
    decodeTableWord 40 0x0214 = some (.wrData 2#32) := by decide

/-- A placed operation is the very next step's: a bus read, a command, a selector (log 5). -/
theorem test_fetch_word :
    after (step (State.reset.withFetchWord 8 0x00)) State.rdata = some (some 0x4D443501#32) ∧
    after (step (State.reset.withFetchWord 32 0x01)) State.status = some 0x00000100#32 ∧
    after (step (State.reset.withFetchWord 16 0x140)) State.status = some 0x00000302#32 := by decide

/-! ### Bus reads and writes -/

/-- T1 to T4, reset state; and R139 in DONE (R216's example). -/
theorem test_reads_reset :
    after (exec .rdId State.reset) State.rdata = some (some 0x4D443501#32) ∧
    after (exec .rdCtrl State.reset) State.rdata = some (some 0#32) ∧
    after (exec .rdStatus State.reset) State.rdata = some (some 0#32) ∧
    after (exec .rdCmd State.reset) State.rdata = some (some 0#32) ∧
    after (exec .rdData State.reset) State.rdata = some (some 0#32) ∧
    after (exec .rdRsv7 State.reset) State.rdata = some (some 0#32) ∧
    after (exec (.rdRsvHigh 3#2) State.reset) State.rdata = some (some 0#32) ∧
    after (exec (.rdDigest 0#2) State.reset) State.rdata = some (some 0#32) := by decide

theorem test_digest_reads :
    after (exec (.rdDigest 0#2) hashed) State.rdata = some (some 0xD98C1DD4#32) ∧
    after (exec (.rdDigest 3#2) hashed) State.rdata = some (some 0x7E42F8EC#32) ∧
    after (exec .rdStatus hashed) State.rdata = some (some 0x00400302#32) := by decide

/-- T44's halves of LEN. -/
theorem test_len_halves :
    after (exec .rdLenLo { opened with len := 0x0000000100000020#64 }) State.rdata = some (some 0x20#32) ∧
    after (exec .rdLenHi { opened with len := 0x0000000100000020#64 }) State.rdata = some (some 1#32) := by
  decide

/-- T5, T6. -/
theorem test_write_ctrl : after (exec (.wrCtrl 0xFFFFFFFF#32) State.reset) State.ctrl = some 1#32 := by decide
theorem test_write_ctrl_even : after (exec (.wrCtrl 0xFFFFFFFE#32) State.reset) State.ie = some false := by
  decide
theorem test_write_data : after (exec (.wrData 0x12345678#32) State.reset) State.data = some 0x12345678#32 := by
  decide

/-- T7, T8: ignored writes. -/
theorem test_ignored_writes :
    next? (exec (.wrRoStatus 0xFFFFFFFF#32) hashed) = some hashed ∧ next? (exec (.wrRoId 0#32) hashed) = some hashed ∧
    next? (exec (.wrRoLenLo 5#32) hashed) = some hashed ∧ next? (exec (.wrRoLenHi 5#32) hashed) = some hashed ∧
    next? (exec (.wrRoDigest 0#2 1#32) hashed) = some hashed ∧
    next? (exec (.wrRsv7 0x12345678#32) hashed) = some hashed ∧
    next? (exec (.wrRsvHigh 2#2 1#32) hashed) = some hashed := by decide

/-! ### Commands -/

/-- T10, T11. -/
theorem test_nop : next? (exec .nop State.reset) = some State.reset := by decide
theorem test_init_from_reset : next? (exec .init State.reset) = some opened := by decide
/-- R148: DATA and IE stay, an error and a digest go. -/
theorem test_init_from_done :
    next? (exec .init { hashed with data := 7#32, ie := true, err := true, errcode := 3#4 }) =
      some { opened with data := 7#32, ie := true } := by decide

/-- T12. -/
theorem test_push :
    after (exec .push { opened with data := 0x64636261#32 }) (fun s => (s.mbuf, s.len, s.bcnt, s.phase)) =
      some ([(0, 0x61#8), (1, 0x62#8), (2, 0x63#8), (3, 0x64#8)], 32#64, 4#7, .absorb) := by decide

/-- T14: the sixteenth PUSH starts the block. -/
theorem test_push_sixteenth :
    after (exec .push { absorbing 60#7 with data := 0x61616161#32 })
      (fun s => (s.status, s.nxt, s.rnd, decide (s.work = s.chainQuad))) =
      some (0x00400201#32, 0#2, 0#7, true) := by decide

/-- T44, T45: LEN counts 64 bits and wraps with no error. -/
theorem test_push_len_wrap :
    after (exec .push { absorbing 60#7 with len := 0xFFFFFFFFFFFFFFE0#64 }) (fun s => (s.len, s.err)) =
      some (0#64, false) ∧
    after (exec .push { absorbing 60#7 with len := 0x00000000FFFFFFE0#64 }) State.lenHi = some 1#32 := by decide

/-- T17, T19: lanes t..3 of DATA are not stored. -/
theorem test_final_tail1 :
    after (exec (.final 1#2) { opened with data := 0xFFFFFF61#32 }) (fun s => (s.mbuf, s.status, s.nxt)) =
      some ([(0, 0x61#8), (1, 0x80#8), (56, 0x08#8)], 0x00400201#32, 2#2) := by decide
theorem test_final_tail3 :
    after (exec (.final 3#2) { opened with data := 0xAA636261#32 }) (fun s => (s.mbuf, s.len)) =
      some ([(0, 0x61#8), (1, 0x62#8), (2, 0x63#8), (3, 0x80#8), (56, 0x18#8)], 24#64) := by decide

/-- T32, T33 and T35: b = 55 keeps the length in the block, b = 56 and b = 63 do not. -/
theorem test_final_55 :
    after (exec (.final 3#2) (absorbing 52#7)) (fun s => (s.nxt, Memory.read s.mbuf 55, Memory.read s.mbuf 56,
      Memory.read s.mbuf 57)) = some (2#2, 0x80#8, 0xB8#8, 0x01#8) := by decide
theorem test_final_56 :
    after (exec (.final 0#2) (absorbing 56#7)) (fun s => (s.nxt, s.mbuf)) = some (1#2, [(56, 0x80#8)]) := by decide
theorem test_final_63 :
    after (exec (.final 3#2) (absorbing 60#7)) (fun s => (s.nxt, s.mbuf, s.len)) =
      some (1#2, [(63, 0x80#8)], 504#64) := by decide

/-- T80, T81, T90, T84, T91. -/
theorem test_sequence_errors :
    after (exec .push State.reset) State.status = some 0x00000034#32 ∧
    after (exec (.final 0#2) State.reset) State.status = some 0x00000034#32 ∧
    after (exec .push hashed) (fun s => (s.status, s.digestWord 0#2)) = some (0x00400336#32, 0xD98C1DD4#32) := by
  decide
theorem test_busy_errors :
    after (exec .push (running 1#32 2#32 3#32 4#32 0#7 0#2)) State.status = some 0x00400225#32 ∧
    after (exec (.final 0#2) (running 1#32 2#32 3#32 4#32 2#7 2#2)) State.status = some 0x00400225#32 := by decide

/-- T82, T83 and T86, T87: through CMD; the first code is kept. -/
theorem test_write_cmd_illegal :
    after (exec (.wrCmd 0x00000012#32) opened) State.status = some 0x00000114#32 ∧
    after (exec (.wrCmd 0x80000003#32) opened) State.status = some 0x00000114#32 ∧
    after (exec (.wrCmd 0x00000005#32) { opened with err := true, errcode := 2#4 }) State.status =
      some 0x00000124#32 := by decide
theorem test_write_cmd_legal :
    after (exec (.wrCmd 0x00000000#32) opened) State.status = some 0x00000100#32 ∧
    after (exec (.wrCmd 0x00000002#32) { opened with data := 0x00636261#32 }) State.status = some 0x00040100#32 ∧
    after (exec (.wrCmd 0x00000033#32) { opened with data := 0x00636261#32 }) State.status = some 0x00400201#32 ∧
    after (exec (.wrCmd 0x00000003#32) { opened with err := true, errcode := 2#4 }) State.status =
      some 0x00000124#32 := by decide

/-- T92 to T94. -/
theorem test_irq :
    State.irq { hashed with ie := true } = true ∧ hashed.irq = false ∧
    State.irq { opened with ie := true } = false ∧
    State.irq { opened with ie := true, err := true, errcode := 3#4 } = true ∧
    after (exec .rdStatus { opened with ie := true, err := true, errcode := 1#4 }) State.irq = some true := by
  decide

/-! ### The mixer -/

/-- T26c and T26d. -/
theorem test_function_mux :
    List.map (fun q => fmux q 0xFFFF0000#32 0xFF00FF00#32 0xF0F0F0F0#32) [0#2, 1#2, 2#2, 3#2] =
      [0xFF00F0F0#32, 0xFFF00F00#32, 0xF00F0FF0#32, 0x00FFF00F#32] ∧
    List.map (fun q => fmux q 0x12345678#32 0x9ABCDEF0#32 0x0FEDCBA9#32) [0#2, 1#2, 2#2, 3#2] =
      [0x1FFDDFF1#32, 0x92345678#32, 0x87654321#32, 0x688AA88E#32] := by decide

/-- T27. -/
theorem test_barrel_shifter :
    rotl32 0x80000001#32 0#5 = 0x80000001#32 ∧ rotl32 0x80000001#32 1#5 = 0x00000003#32 ∧
    rotl32 0x12345678#32 31#5 = 0x091A2B3C#32 ∧ rotl32 0xDEADBEEF#32 16#5 = 0xBEEFDEAD#32 := by decide

/-- T28: g, s and K at every quarter boundary. -/
theorem test_schedule_and_roms :
    List.map (fun i => ((gIndex i).toNat, (sAmount i).toNat, kWord i))
      [0#6, 1#6, 15#6, 16#6, 17#6, 31#6, 32#6, 33#6, 47#6, 48#6, 49#6, 63#6] =
      [(0, 7, 0xD76AA478#32), (1, 12, 0xE8C7B756#32), (15, 22, 0x49B40821#32), (1, 5, 0xF61E2562#32),
       (6, 9, 0xC040B340#32), (12, 20, 0x8D2A4C8A#32), (5, 4, 0xFFFA3942#32), (8, 11, 0x8771F681#32),
       (2, 23, 0xC4AC5665#32), (0, 6, 0xF4292244#32), (7, 10, 0x432AFF97#32), (9, 21, 0xEB86D391#32)] := by
  decide

/-- R73: lane 0 of a word is its lowest byte, at the first and the last word of the block. -/
theorem test_word :
    let m : Memory := [(0, 0x61#8), (1, 0x62#8), (2, 0x63#8), (3, 0x80#8), (60, 0x01#8), (63, 0x02#8)]
    Memory.word m 0#4 = 0x80636261#32 ∧ Memory.word m 15#4 = 0x02000001#32 := by decide

/-- R210's example, round 0 of the empty message. -/
theorem test_roundF :
    after (exec (.roundF 2#2 0#4)
      { running 0x67452301#32 0xEFCDAB89#32 0x98BADCFE#32 0x10325476#32 0#7 2#2 with mbuf := [(0, 0x80#8)] })
      (fun s => (s.work, s.rnd)) =
      some (⟨0x10325476#32, 0xA5202774#32, 0xEFCDAB89#32, 0x98BADCFE#32⟩, 1#7) := by decide

/-- R211's example, round 16, and T23 at i = 19, which reads the message word 0x00000080. -/
theorem test_roundG :
    after (exec (.roundG 2#2 0#4)
      { running 0xF56C7CF1#32 0xD6819C6A#32 0x5AA53F75#32 0x374943A7#32 16#7 2#2 with mbuf := [(0, 0x80#8)] })
      (fun s => (s.work, s.rnd)) =
      some (⟨0x374943A7#32, 0x1C7D7513#32, 0xD6819C6A#32, 0x5AA53F75#32⟩, 17#7) ∧
    after (exec (.roundG 2#2 3#4)
      { running 0xD6819C6A#32 0xC095F13A#32 0x7BD57A3A#32 0x1C7D7513#32 19#7 2#2 with mbuf := [(0, 0x80#8)] })
      (fun s => (s.work, s.rnd)) =
      some (⟨0x1C7D7513#32, 0xBD782E17#32, 0xC095F13A#32, 0x7BD57A3A#32⟩, 20#7) := by decide

/-- R212's example, round 32. -/
theorem test_roundH :
    after (exec (.roundH 2#2 0#4)
      { running 0x13707036#32 0xA2205F1F#32 0x1C31C384#32 0xAE7813DB#32 32#7 2#2 with mbuf := [(0, 0x80#8)] })
      (fun s => (s.work, s.rnd)) =
      some (⟨0xAE7813DB#32, 0xDF63EAA1#32, 0xA2205F1F#32, 0x1C31C384#32⟩, 33#7) := by decide

/-- R213's example, round 63. -/
theorem test_roundI :
    after (exec (.roundI 2#2 15#4)
      { running 0x30130182#32 0xFF4EA3EB#32 0x6E10A476#32 0x7246FAD3#32 63#7 2#2 with mbuf := [(0, 0x80#8)] })
      (fun s => (s.work, s.rnd)) =
      some (⟨0x7246FAD3#32, 0x14E45506#32, 0xFF4EA3EB#32, 0x6E10A476#32⟩, 64#7) := by decide

/-- R109: a round's selector with NEXT = 3 faults. -/
theorem test_round_next3 : fault? (exec (.roundF 3#2 0#4) opened) = some .unreachableSelector := by decide

/-- T25a. -/
theorem test_accumCont :
    after (exec .accumCont (running 0x228FDC55#32 0x228F2DD9#32 0xD1100135#32 0xF0018EAF#32 64#7 0#2))
      (fun s => (s.chainQuad, s.status, s.rnd)) =
      some (⟨0x89D4FF56#32, 0x125CD962#32, 0x69CADE33#32, 0x0033E325#32⟩, 0x00000100#32, 0#7) := by decide

/-- T25c with R215's example: the padding block of LEN = 448 starts from the new chaining words. -/
theorem test_accumPad2 :
    let o := exec .accumPad2
      { running 0xDE806451#32 0xFE4D4F80#32 0xA356097A#32 0x783CD016#32 64#7 1#2 with
        len := 448#64, mbuf := [(55, 0x71#8), (56, 0x80#8)] }
    after o State.work = some ⟨0x45C58752#32, 0xEE1AFB09#32, 0x3C10E678#32, 0x886F248C#32⟩ ∧
    after o State.chainQuad = after o State.work ∧
    after o State.mbuf = some [(56, 0xC0#8), (57, 0x01#8)] ∧
    after o (fun s => (s.status, s.nxt)) = some (0x00400201#32, 2#2) := by decide

/-- R216's example. -/
theorem test_accumLast :
    after (exec .accumLast (running 0x7246FAD3#32 0x14E45506#32 0xFF4EA3EB#32 0x6E10A476#32 64#7 2#2))
      (fun s => (s.chainQuad, s.status)) =
      some (⟨0xD98C1DD4#32, 0x04B2008F#32, 0x980980E9#32, 0x7E42F8EC#32⟩, 0x00400302#32) := by decide

/-- T50. -/
theorem test_serializer :
    hashed.digest = [0xd4#8, 0x1d#8, 0x8c#8, 0xd9#8, 0x8f#8, 0x00#8, 0xb2#8, 0x04#8, 0xe9#8, 0x80#8, 0x09#8,
      0x98#8, 0xec#8, 0xf8#8, 0x42#8, 0x7e#8] := by decide

/-! ### Turns -/

/-- T94's read through the port; R341; R85: an engine turn outside RUN is no step. -/
theorem test_turns :
    after (step (withTurn opened (.bus 0b00010#5 0#32))) State.rdata = some (some 0x00000100#32) ∧
    next? (step (withTurn (running 1#32 2#32 3#32 4#32 5#7 1#2) .reset)) = some State.reset ∧
    next? (step (withTurn hashed .engine)) = some hashed := by decide

/-! ### Witnesses: a concrete state and operands for the hypotheses of every obligation that has any,
one clause at a time, at a boundary of its range -/

/-- ABSORB after 15 PUSHes (T13), in a session of 60 zero bytes. -/
def fifteen : State := absorbing 60#7

/-- RUN at the start of a block with this NEXT. -/
def started (nxt : BitVec 2) : State :=
  { opened with
    a := 0x67452301#32, b := 0xEFCDAB89#32, c := 0x98BADCFE#32, d := 0x10325476#32
    nxt := nxt, phase := .run, bcnt := 64#7 }

theorem witness_DecodeEncodeRoundTrip :
    (Instr.roundI 2#2 15#4).wf = true ∧ (Instr.final 3#2).wf = true ∧ (Instr.rdId).wf = true := by decide

theorem witness_EncodeDecodeRoundTrip :
    decode (.cmd 0x00000033#32) = .ok (.final 3#2) ∧ decode (.sel 0b10_0111111#9) = .ok (.roundI 2#2 15#4) := by
  decide

theorem witness_ExactlySevenLegalCommands : ¬ ∃ i, decode (.cmd 0x00000004#32) = .ok i := by
  rintro ⟨i, h⟩
  rw [show decode (.cmd 0x00000004#32) = .error .illegalCmd by decide] at h
  cases h

theorem witness_SelectorSelectsMicroOperation :
    (15#7).toNat < 16 ∧ (16 ≤ (16#7).toNat ∧ (31#7).toNat < 32) ∧ (32 ≤ (32#7).toNat ∧ (47#7).toNat < 48) ∧
    (48 ≤ (48#7).toNat ∧ (63#7).toNat < 64) ∧ (64#7).toNat = 64 ∧ 65 ≤ (65#7).toNat ∧ 65 ≤ (127#7).toNat := by
  decide

/-- An engine step of round 63, for the clause on LEN and for the engine steps that raise nothing. -/
theorem witness_engine_step :
    fetchEngine (running 1#32 2#32 3#32 4#32 63#7 2#2) =
      .instr (.roundI 2#2 15#4) (running 1#32 2#32 3#32 4#32 63#7 2#2) ∧
    (next? (exec (.roundI 2#2 15#4) (running 1#32 2#32 3#32 4#32 63#7 2#2))).isSome = true := by decide

theorem witness_LenReadsReturnHalves : ∃ s s1 t i, fetchEngine s = .instr i s1 ∧ exec i s1 = .next t :=
  ⟨running 1#32 2#32 3#32 4#32 64#7 0#2, running 1#32 2#32 3#32 4#32 64#7 0#2, _, .accumCont, by decide, rfl⟩

theorem witness_EngineStepsRaiseNothing :
    ∃ s s1 t i, fetchEngine s = .instr i s1 ∧ exec i s1 = .next t ∧ s.err = true :=
  ⟨{ started 2#2 with err := true, errcode := 2#4 }, { started 2#2 with err := true, errcode := 2#4 }, _,
    .roundF 2#2 0#4, by decide, rfl, rfl⟩

theorem witness_DigestReadOnlyWhenDone : opened.phase ≠ .done ∧ hashed.phase = .done := by decide

/-- Two states that differ in every hidden register, and in H0 too where PHASE is not DONE. -/
theorem witness_HiddenStateNotReadable :
    let s := running 1#32 2#32 3#32 4#32 5#7 1#2
    let s' := { running 9#32 8#32 7#32 6#32 60#7 2#2 with h0 := 5#32, mbuf := [(3, 1#8)] }
    s.phase = s'.phase ∧ s.bcnt = s'.bcnt ∧ s.len = s'.len ∧ s.data = s'.data ∧ s.ie = s'.ie ∧
    s.err = s'.err ∧ s.errcode = s'.errcode ∧ s.phase ≠ .done ∧ s.work ≠ s'.work ∧ s.h0 ≠ s'.h0 := by decide

theorem witness_HiddenStateNotReadable_done :
    let s := hashed
    let s' := { hashed with a := 0#32, nxt := 0#2, mbuf := [] }
    s.phase = s'.phase ∧ s.bcnt = s'.bcnt ∧ s.len = s'.len ∧ s.data = s'.data ∧ s.ie = s'.ie ∧
    s.err = s'.err ∧ s.errcode = s'.errcode ∧
    (s.phase = .done → s.h0 = s'.h0 ∧ s.h1 = s'.h1 ∧ s.h2 = s'.h2 ∧ s.h3 = s'.h3) ∧ s.phase = .done := by decide

theorem witness_StatusReadPacksFields :
    State.reset.phase = .idle ∧ opened.phase = .absorb ∧ (started 0#2).phase = .run ∧ hashed.phase = .done := by
  decide

theorem witness_CtrlWriteKeepsBitZero :
    (0xFFFFFFFF#32).getLsbD 0 = true ∧ hashed.phase = .done ∧
    { opened with err := true, errcode := 1#4 }.err = true := by decide

theorem witness_CmdWriteRunsCommand :
    decode (.cmd 0x00000040#32) = .error .illegalCmd ∧ decode (.cmd 0x00000001#32) = .ok .init := by decide

/-- PUSH at BCNT = 60 fills the block exactly; FINAL at BCNT = 60 with t = 3 ends at byte 63. -/
theorem witness_CmdWriteCompletes :
    fifteen.err = false ∧ fifteen.phase = .absorb ∧ fifteen.bcnt.toNat + 4 ≤ 64 ∧
    fifteen.bcnt.toNat + (3#2).toNat + 1 ≤ 64 := by decide

theorem witness_PushAbsorbsFourBytes :
    fifteen.err = false ∧ fifteen.phase = .absorb ∧ fifteen.bcnt.toNat + 4 = 64 := by decide

theorem witness_PushAbsorbsFourBytes_open :
    (absorbing 56#7).err = false ∧ (absorbing 56#7).phase = .absorb ∧ (absorbing 56#7).bcnt.toNat + 4 ≤ 64 ∧
    (absorbing 56#7).bcnt.toNat + 4 ≠ 64 := by decide

theorem witness_gate_refuses : hashed.err = false ∧ hashed.phase ≠ .absorb ∧
    { opened with err := true, errcode := 3#4 }.err = true := by decide

/-- FINAL with b = 55, 56 and 63, the boundaries of PadFinal (R172). -/
theorem witness_FinalPadsAndStartsBlock :
    (absorbing 52#7).err = false ∧ (absorbing 52#7).phase = .absorb ∧
    55 = (absorbing 52#7).bcnt.toNat + (3#2).toNat ∧
    56 = (absorbing 56#7).bcnt.toNat + (0#2).toNat ∧ 63 = fifteen.bcnt.toNat + (3#2).toNat := by decide

theorem witness_BusyAndSequenceErrors :
    (started 0#2).err = false ∧ (started 0#2).phase = .run ∧ State.reset.err = false ∧ State.reset.phase = .idle ∧
    hashed.err = false ∧ hashed.phase = .done := by decide

theorem witness_CmdErrorPriority :
    decode (.cmd 0x00000012#32) = .error .illegalCmd ∧ decode (.cmd 0x00000000#32) = .ok .nop ∧
    decode (.cmd 0x00000001#32) = .ok .init ∧ decode (.cmd 0x00000002#32) = .ok .push ∧
    decode (.cmd 0x00000013#32) = .ok (.final 1#2) ∧ fifteen.err = false ∧ fifteen.phase = .absorb ∧
    fifteen.bcnt.toNat ≤ 60 ∧ { started 0#2 with err := true, errcode := 2#4 }.err = true := by decide

/-- The first BCNT at which PUSH, and at which FINAL with t = 0, has no room. -/
theorem witness_StoreOutsideMbufFaults :
    (absorbing 61#7).err = false ∧ (absorbing 61#7).phase = .absorb ∧ 60 < (absorbing 61#7).bcnt.toNat ∧
    63 < (absorbing 64#7).bcnt.toNat + (0#2).toNat ∧ 63 < (absorbing 61#7).bcnt.toNat + (3#2).toNat := by decide

theorem witness_BarrelShifterRotates : 1 ≤ (1#5).toNat ∧ 1 ≤ (31#5).toNat ∧ 31 < 32 := by decide

theorem witness_FunctionMuxTruthTable : 0 < 32 ∧ 31 < 32 := by decide

/-- For ROUND_F, ROUND_G, ROUND_H and ROUND_I: the largest NEXT field that is no fault. -/
theorem witness_RoundSteps : 0#2 ≠ 3#2 ∧ 2#2 ≠ 3#2 := by decide

/-- The bounded bytes of the padding block and of the length field. -/
theorem witness_AccumPad2BuildsPaddingBlock : 55 ≤ 55 ∧ 7 < 8 ∧ 64 ≤ 64 := by decide

theorem witness_LengthFieldIsLittleEndian : 3 < 4 ∧ 7 < 8 := by decide

theorem witness_BlockTakesSixtyFiveSteps :
    List.map (fun n => decide ((started n).phase = .run ∧ (started n).rnd = 0#7 ∧ (started n).turns = [] ∧
      (started n).nxt = n ∧ (started n).nxt ≠ 3#2 ∧ (started n).work = (started n).chainQuad))
      [0#2, 1#2, 2#2] = [true, true, true] := by decide

theorem witness_EngineStepsOnlyInRun :
    hashed.phase ≠ .run ∧ (started 2#2).phase = .run ∧
    decode (.sel ((started 2#2).nxt ++ (started 2#2).rnd)) = .ok (.roundF 2#2 0#4) := by decide

theorem witness_UnreachableSelectorFaults :
    (running 0#32 0#32 0#32 0#32 65#7 0#2).phase = .run ∧
    65 ≤ (running 0#32 0#32 0#32 0#32 65#7 0#2).rnd.toNat ∧
    (running 0#32 0#32 0#32 0#32 0#7 3#2).nxt = 3#2 := by decide

/-- A PUSH through CMD while the engine runs, and a read. -/
theorem witness_HostCannotDisturbRun :
    let s := withTurn (started 0#2) (.bus 0b10011#5 0x00000002#32)
    s.phase = .run ∧ s.turns = [.bus 0b10011#5 0x00000002#32] ∧
    commandOf (decodeBus 0b10011#5 0x00000002#32) ≠ some .init ∧
    commandOf (decodeBus 0b00010#5 0#32) ≠ some .init := by decide

theorem witness_DigestIsLittleEndian : 3 < 4 ∧ hashed.phase = .done := by decide

theorem witness_IrqIsLevel : ∃ t u v : State,
    exec .init { hashed with ie := true } = .next t ∧
    (0#32).getLsbD 0 = false ∧ exec (.wrCtrl 0#32) { hashed with ie := true } = .next u ∧
    exec (decodeBus (0b0#1 ++ 2#4) 0#32) { hashed with ie := true } = .next v :=
  ⟨_, _, _, rfl, rfl, rfl, rfl⟩

theorem witness_ResetTurnResets :
    (withTurn (started 1#2) .reset).turns = .reset :: [] ∧ (withTurn (started 1#2) .reset).phase = .run := by decide

theorem witness_StepRunsDecodedInstruction :
    (withTurn opened (.bus 0b00010#5 0#32)).turns = [.bus 0b00010#5 0#32] ∧
    decode (.bus 0b00010#5 0#32) = .ok .rdStatus ∧
    (withTurn opened (.bus 0b10011#5 0x33#32)).turns = [.bus 0b10011#5 0x33#32] ∧
    decode (.cmd 0x33#32) = .ok (.final 3#2) ∧
    (withTurn (started 1#2) .engine).turns = [.engine] ∧ (started 1#2).phase = .run ∧
    decode (.sel ((started 1#2).nxt ++ (started 1#2).rnd)) = .ok (.roundF 1#2 0#4) := by decide

/-- DIGEST3, the window's last defined word, and accesses that R77 refuses: one byte, and a word at a
misaligned address. -/
theorem witness_PlatformAccessReachesWindow :
    (withTurn hashed (.access 4 (Config.md5Base + 4 * (11#4).toNat) none)).turns =
      [.access 4 (Config.md5Base + 4 * (11#4).toNat) none] ∧
    (Config.md5Base + 63 < Config.md5Base + 64 ∧ Config.md5Base < Config.md5Base + 63 + 1 ∧
      ¬ (1 = 4 ∧ (Config.md5Base + 63) % 4 = 0)) ∧
    (Config.md5Base + 2 < Config.md5Base + 64 ∧ Config.md5Base < Config.md5Base + 2 + 4 ∧
      ¬ (4 = 4 ∧ (Config.md5Base + 2) % 4 = 0)) := by
  refine ⟨rfl, ⟨by omega, by omega, by omega⟩, by omega, by omega, ?_⟩
  unfold Config.md5Base; omega

/-- R76, R77 and R82: STATUS at MD5_BASE + 8, one byte of the window, the word after the window. -/
theorem test_accesses :
    fetchAccess 4 (Config.md5Base + 8) none opened = fetchBus 0b00010#5 0#32 opened ∧
    fetchAccess 1 Config.md5Base none opened = .refused .narrowOrMisaligned ∧
    fetchAccess 4 (Config.md5Base + 64) none opened = .refused .outsideWindow := by
  have h1 : touchesWindow 4 (Config.md5Base + 8) = true := by simp [touchesWindow]; omega
  have h2 : touchesWindow 1 Config.md5Base = true := by simp [touchesWindow]
  have h3 : touchesWindow 4 (Config.md5Base + 64) = false := by simp [touchesWindow]
  have h4 : (Config.md5Base + 8) % 4 = 0 := by unfold Config.md5Base; omega
  refine ⟨?_, ?_, ?_⟩
  · simp only [fetchAccess, h1, h4, Nat.add_sub_cancel_left]; rfl
  · simp [fetchAccess, h2]
  · simp [fetchAccess, h3]

/-- The invariant of a state in ABSORB and of one in RUN. -/
theorem opened_inv (x : List Turn) : EngineInv { opened with turns := x } := by
  constructor <;> first | rfl | decide | simp [opened, State.reset, errNone]

theorem started_inv : EngineInv (started 2#2) := by
  constructor <;> first | rfl | decide

theorem witness_StepKeepsInvariant : ∃ s t, EngineInv s ∧ step s = .next t ∧ t.rnd = 1#7 :=
  ⟨started 2#2, _, started_inv, step_of_instr (i := .roundF 2#2 0#4) (s1 := started 2#2) (by decide), rfl⟩

theorem witness_NoStepFaultsUnderInvariant :
    EngineInv { opened with turns := [.bus 0b10011#5 2#32, .engine, .reset] } ∧
    ∀ x ∈ { opened with turns := [.bus 0b10011#5 2#32, .engine, .reset] }.turns, x.atPort = true :=
  ⟨opened_inv _, by decide⟩

/-- A PUSH under ERR = 1, and a PUSH in DONE: neither a reset nor an INIT. -/
theorem witness_ErrorIsSticky :
    let s := { withTurn opened (.bus 0b10011#5 2#32) with err := true, errcode := 3#4 }
    s.err = true ∧ (next? (step s)).isSome = true ∧
    fetch s = .instr (.wrCmd 2#32) { s with turns := [] } ∧ commandOf (.wrCmd 2#32) ≠ some .init := by decide

theorem witness_DigestStableInDone :
    let s := withTurn hashed (.bus 0b10011#5 2#32)
    s.phase = .done ∧ (next? (step s)).isSome = true ∧
    fetch s = .instr (.wrCmd 2#32) { s with turns := [] } ∧ commandOf (.wrCmd 2#32) ≠ some .init := by decide

theorem witness_InitForgetsEarlierSession :
    State.reset.data = hashed.data ∧ State.reset.ie = hashed.ie ∧ State.reset.turns = hashed.turns ∧
    State.reset.rdata = hashed.rdata ∧ State.reset ≠ hashed := by decide

/-- The padded message of 56 bytes has 128 bytes, its zeros at 57 to 119 (R170). -/
theorem witness_PaddedMessageShape :
    let m := List.replicate 56 0x61#8
    55 < m.length ∧ m.length < 57 ∧ 57 < (padMessage m).length - 8 ∧ 119 < (padMessage m).length - 8 ∧ 7 < 8 := by
  simp [padMessage_length]

/-- The opened state stands in the session of the empty message. -/
theorem opened_session (x : List Turn) : Session { opened with turns := x } [] :=
  ⟨rfl, rfl, rfl, fun p h => absurd h (Nat.not_lt_zero p), rfl⟩

theorem witness_StepTracksSessionMessage : ∃ s s1 t i m,
    Session s m ∧ fetch s = .instr i s1 ∧ exec i s1 = .next t ∧ messageAfter i s1 m = List.replicate 4 0x61#8 :=
  let s : State := { opened with data := 0x61616161#32 }
  ⟨{ s with turns := [.bus 0b10011#5 2#32] }, s, s.pushed, .wrCmd 2#32, [],
    (opened_session []).congr rfl rfl rfl rfl rfl rfl rfl rfl, by decide,
    (execWrCmd_legal (c := .push) (by decide) s).trans (execPush_accepted (by decide) (by decide) (by decide)),
    by decide⟩

theorem witness_FinalYieldsMessageDigest :
    Session opened [] ∧ opened.phase = .absorb ∧ opened.err = false ∧ opened.turns = [] :=
  ⟨opened_session [], rfl, rfl, rfl⟩

/-- R216's example is the digest of the empty message. -/
theorem witness_DoneSessionReadsDigest : Session hashed [] ∧ hashed.phase = .done :=
  ⟨⟨rfl, by show hashed.chainQuad = chainAfter (padMessage []) 1; decide +kernel⟩, rfl⟩

end Sys2Proof.Tests
end

section
/-! The invariant of R51 under the micro-operations of the engine (R210 to R216), under a bus operation
(R132 to R150), and under one step. -/

namespace Sys2Proof.Machine

/-- R302 with or without an earlier error. -/
theorem EngineInv.raiseCmdError_any {s : State} (h : EngineInv s) (e : CmdError) :
    EngineInv (s.raiseCmdError e) := by
  cases he : s.err with
  | false => exact h.raiseCmdError he e
  | true => rw [raiseCmdError_of_err s e he]; exact h

/-! ### The engine -/

theorem toNat_nextRound (i : BitVec 6) : (i.setWidth 7 + 1#7).toNat = i.toNat + 1 := by
  have := i.isLt
  simp only [BitVec.toNat_add, BitVec.toNat_setWidth, BitVec.toNat_ofNat]
  omega

/-- A round moves RND to at most 64 and stays in RUN (R204). -/
theorem EngineInv.round {s : State} (h : EngineInv s) (hp : s.phase = .run) (i : BitVec 6) :
    EngineInv (s.round i) where
  mbufWf := h.mbufWf
  absorbCount := by simp [hp]
  fullCount := h.fullCount
  idleReset := by simp [hp]
  rndRange := by
    have := i.isLt
    rw [round_rnd, toNat_nextRound]
    omega
  rndIdle := by simp [hp]
  nxtLegal := h.nxtLegal
  lenCount := by simp [hp]
  lenBlock := h.lenBlock
  errClear := h.errClear
  errRange := h.errRange

/-- ABSORB starts again at BCNT = 0: in RUN with NEXT = CONT, LEN counts whole blocks (R214, R171). -/
theorem EngineInv.accumCont {s : State} (h : EngineInv s) (hp : s.phase = .run) (hn : s.nxt = 0#2) :
    EngineInv { s.accumulate with rnd := 0#7, bcnt := 0#7, phase := .absorb } where
  mbufWf := h.mbufWf
  absorbCount := by simp
  fullCount := by simp
  idleReset := by simp
  rndRange := by simp
  rndIdle := by simp
  nxtLegal := h.nxtLegal
  lenCount := fun _ => h.lenBlock hp hn
  lenBlock := by simp
  errClear := h.errClear
  errRange := h.errRange

/-- The padding block starts in RUN with NEXT = LAST and BCNT still 64 (R215). -/
theorem EngineInv.accumPad2 {s : State} (h : EngineInv s) (hp : s.phase = .run) (w : Quad) :
    EngineInv { (s.setChain w).setWork w with
      mbuf := padBlock s.mbuf s.len, rnd := 0#7, nxt := 2#2 } where
  mbufWf := wf_padBlock h.mbufWf
  absorbCount := by simp [hp]
  fullCount := h.fullCount
  idleReset := by simp [hp]
  rndRange := by simp
  rndIdle := by simp
  nxtLegal := by simp
  lenCount := by simp [hp]
  lenBlock := by simp
  errClear := h.errClear
  errRange := h.errRange

/-- DONE keeps BCNT = 64 (R216). -/
theorem EngineInv.accumLast {s : State} (h : EngineInv s) (hp : s.phase = .run) :
    EngineInv { s.accumulate with rnd := 0#7, phase := .done } where
  mbufWf := h.mbufWf
  absorbCount := by simp
  fullCount := fun _ => h.fullCount (.inl hp)
  idleReset := by simp
  rndRange := by simp
  rndIdle := by simp
  nxtLegal := h.nxtLegal
  lenCount := by simp
  lenBlock := by simp
  errClear := h.errClear
  errRange := h.errRange

/-- The micro-operation that SEL selects in RUN keeps the invariant (R217). -/
theorem EngineInv.engine {s t : State} {i : Instr} (h : EngineInv s) (hp : s.phase = .run)
    (hd : decodeSel s.sel = some i) (hx : exec i s = .next t) : EngineInv t := by
  obtain ⟨-, -, rfl⟩ | ⟨-, hn, rfl⟩ | ⟨-, -, rfl⟩ | ⟨-, -, rfl⟩ := engine_cases hd hx
  · exact h.round hp _
  · exact h.accumCont hp hn
  · exact h.accumPad2 hp _
  · exact h.accumLast hp

/-! ### The host -/

/-- PUSH keeps the invariant, accepted or not (R149). -/
theorem EngineInv.execPush {s t : State} (h : EngineInv s) (hx : execPush s = .next t) :
    EngineInv t := by
  obtain ⟨-, rfl⟩ | ⟨he, -, rfl⟩ | ⟨he, -, rfl⟩ | ⟨-, hp, hb, rfl⟩ := execPush_next hx
  · exact h
  · exact h.raiseCmdError he _
  · exact h.raiseCmdError he _
  · exact h.pushed hp hb

/-- FINAL keeps the invariant, accepted or not (R150). -/
theorem EngineInv.execFinal {s t : State} {n : BitVec 2} (h : EngineInv s)
    (hx : execFinal n s = .next t) : EngineInv t := by
  obtain ⟨-, rfl⟩ | ⟨he, -, rfl⟩ | ⟨he, -, rfl⟩ | ⟨-, -, hb, rfl⟩ := execFinal_next hx
  · exact h
  · exact h.raiseCmdError he _
  · exact h.raiseCmdError he _
  · exact h.finalised n hb

/-- A legal command keeps the invariant (R147 to R150). -/
theorem EngineInv.command {s t : State} {c : Command} (h : EngineInv s)
    (hx : exec c.instr s = .next t) : EngineInv t := by
  cases c with
  | nop => cases hx; exact h
  | init => exact .ofInit hx
  | push => exact h.execPush hx
  | final n => exact h.execFinal hx

/-- A write to CMD keeps the invariant, whatever the word (R143). -/
theorem EngineInv.wrCmd {s t : State} {w : Word} (h : EngineInv s)
    (hx : exec (.wrCmd w) s = .next t) : EngineInv t := by
  cases hd : decodeCmd w with
  | none =>
    rw [execWrCmd_illegal hd] at hx
    cases hx
    exact h.raiseCmdError_any _
  | some c => exact h.command (execWrCmd_legal hd s ▸ hx)

/-- Every bus operation keeps the invariant (R132 to R145). -/
theorem EngineInv.bus {s t : State} {req : BitVec 5} {w : Word} (h : EngineInv s)
    (hx : exec (decodeBus req w) s = .next t) : EngineInv t := by
  obtain ⟨read, hr⟩ | hr | hr | hr | hr := decodeBus_cases req w <;> rw [hr] at hx
  · cases hx; exact h.withHost s.turns (some (read s))
  · cases hx; exact h
  · cases hx; exact h.withIe _
  · cases hx; exact h.withData _
  · exact h.wrCmd hx

/-! ### The step, and reset -/

/-- Settles O50, by what a step can be: an engine step or a bus operation, an idle turn, a reset. -/
theorem stepKeepsInvariant : Obligations.StepKeepsInvariant := by
  unfold Obligations.StepKeepsInvariant
  intro s t h hstep
  obtain ⟨i, s1, hf, hx⟩ | hf | hf := step_next hstep
  · obtain ⟨ts, rfl, hp, hd⟩ | ⟨ts, req, w, rfl, rfl⟩ := fetch_instr hf
    · exact (h.withHost ts s.rdata).engine hp hd hx
    · exact (h.withHost ts none).bus hx
  · obtain ⟨ts, rfl, -⟩ := fetch_idle hf
    exact h.withHost ts s.rdata
  · obtain ⟨ts, rfl⟩ := fetch_reset hf
    exact .ofReset ts

/-- Settles O49: reset with no turn to come. -/
theorem resetMeetsInvariant : Obligations.ResetMeetsInvariant := by
  unfold Obligations.ResetMeetsInvariant
  exact EngineInv.ofReset []

end Sys2Proof.Machine
end

section
/-! What the host can observe of a state (R41, R50): every read and irq depend on that alone. -/

namespace Sys2Proof.Machine

/-- The two states agree on all that R50 lets the host observe. -/
structure SameView (s s' : State) : Prop where
  phase : s.phase = s'.phase
  bcnt : s.bcnt = s'.bcnt
  len : s.len = s'.len
  data : s.data = s'.data
  ie : s.ie = s'.ie
  err : s.err = s'.err
  errcode : s.errcode = s'.errcode
  /-- H0..H3 are visible in DONE only (R46). -/
  digest : s.phase = .done → s.h0 = s'.h0 ∧ s.h1 = s'.h1 ∧ s.h2 = s'.h2 ∧ s.h3 = s'.h3

section
variable {s s' : State} (h : SameView s s')
include h

theorem SameView.busy : s.busy = s'.busy := by
  simp only [State.busy, h.phase]

theorem SameView.isDone : s.isDone = s'.isDone := by
  simp only [State.isDone, h.phase]

theorem SameView.irq : s.irq = s'.irq := by
  simp only [State.irq, h.ie, h.isDone, h.err]

theorem SameView.ctrl : s.ctrl = s'.ctrl := by
  simp only [State.ctrl, h.ie]

theorem SameView.status : s.status = s'.status := by
  simp only [State.status, h.bcnt, h.phase, h.errcode, h.err, h.isDone, h.busy]

theorem SameView.lenLo : s.lenLo = s'.lenLo := by
  simp only [State.lenLo, h.len]

theorem SameView.lenHi : s.lenHi = s'.lenHi := by
  simp only [State.lenHi, h.len]

/-- Outside DONE both read 0; in DONE both read the visible Hk (R46, R139). -/
theorem SameView.digestWord (k : BitVec 2) : s.digestWord k = s'.digestWord k := by
  by_cases hp : s.phase = .done
  · obtain ⟨h0, h1, h2, h3⟩ := h.digest hp
    have hp' : s'.phase = .done := h.phase ▸ hp
    simp only [State.digestWord, if_pos hp, if_pos hp', State.chain, h0, h1, h2, h3]
  · have hp' : s'.phase ≠ .done := h.phase ▸ hp
    simp only [State.digestWord, if_neg hp, if_neg hp']

end

/-- A request with WE = 0 is a read of its index (R101). -/
theorem decodeBus_read (idx : BitVec 4) (w : Word) : decodeBus (0b0#1 ++ idx) w = decodeRead idx := by
  have hwe : (0b0#1 ++ idx).getLsbD 4 ≠ true := by revert idx; decide
  have hidx : (0b0#1 ++ idx).extractLsb' 0 4 = idx := by revert idx; decide
  rw [decodeBus, if_neg hwe, hidx]

/-- Every read answers a value that depends on the visible state only (R50, R132 to R140). -/
theorem decodeRead_answers_visible (idx : BitVec 4) :
    ∃ read : State → Word, (∀ s, exec (decodeRead idx) s = .next (s.answer (read s))) ∧
      ∀ s s', SameView s s' → read s = read s' := by
  unfold decodeRead
  split_ifs
  · exact ⟨fun _ => idWord, fun _ => rfl, fun _ _ _ => rfl⟩
  · exact ⟨State.ctrl, fun _ => rfl, fun _ _ h => h.ctrl⟩
  · exact ⟨State.status, fun _ => rfl, fun _ _ h => h.status⟩
  · exact ⟨fun _ => 0#32, fun _ => rfl, fun _ _ _ => rfl⟩
  · exact ⟨State.data, fun _ => rfl, fun _ _ h => h.data⟩
  · exact ⟨State.lenLo, fun _ => rfl, fun _ _ h => h.lenLo⟩
  · exact ⟨State.lenHi, fun _ => rfl, fun _ _ h => h.lenHi⟩
  · exact ⟨fun _ => 0#32, fun _ => rfl, fun _ _ _ => rfl⟩
  · exact ⟨fun s => s.digestWord (idx.extractLsb' 0 2), fun _ => rfl, fun _ _ h => h.digestWord _⟩
  · exact ⟨fun _ => 0#32, fun _ => rfl, fun _ _ _ => rfl⟩

/-- Settles O14: the hypotheses are one view of both states, and reads and irq depend on the view. -/
theorem hiddenStateNotReadable : Obligations.HiddenStateNotReadable := by
  unfold Obligations.HiddenStateNotReadable
  intro idx s s' hphase hbcnt hlen hdata hie herr hcode hdigest
  have hview : SameView s s' := ⟨hphase, hbcnt, hlen, hdata, hie, herr, hcode, hdigest⟩
  obtain ⟨read, hread, hsame⟩ := decodeRead_answers_visible idx
  rw [decodeBus_read]
  refine ⟨hview.irq, read s, hread s, ?_⟩
  rw [hread s', ← hsame s s' hview]
  rfl

end Sys2Proof.Machine
end

section
/-! The session of a message (R131) under a command, a bus operation and one step. -/

namespace Sys2Proof.Machine

/-- The turns, the answer, IE and DATA are no part of a session. -/
theorem Session.withHostSide {s : State} {m : List Byte} (h : Session s m) (ts : List Turn)
    (r : Option Word) (x : Bool) (v : Word) :
    Session { s with turns := ts, rdata := r, ie := x, data := v } m :=
  h.congr rfl rfl rfl rfl rfl rfl rfl rfl

/-- ERR and ERRCODE are no part of a session. -/
theorem Session.raiseCmdError {s : State} {m : List Byte} (h : Session s m) (e : CmdError) :
    Session (s.raiseCmdError e) m := by
  apply h.congr <;> simp

/-- INIT opens the session of the empty message, whatever came before (R148). -/
theorem Session.ofInit {s t : State} (hx : exec .init s = .next t) : Session t [] := by
  cases hx
  exact ⟨rfl, rfl, rfl, fun p hp => absurd hp (Nat.not_lt_zero p), rfl⟩

/-! ### The gate -/

theorem accepts_of_err {s : State} (he : s.err = true) : accepts s = false := by
  simp [accepts, he]

theorem accepts_of_phase_ne {s : State} (hp : s.phase ≠ .absorb) : accepts s = false := by
  simp [accepts, hp]

theorem accepts_of_absorb {s : State} (he : s.err = false) (hp : s.phase = .absorb) :
    accepts s = true := by
  simp [accepts, he, hp]

/-- No command is accepted in IDLE or DONE (R146). -/
theorem accepts_of_closed {s : State} (hp : s.phase = .idle ∨ s.phase = .done) :
    accepts s = false :=
  accepts_of_phase_ne (by rcases hp with hp | hp <;> simp [hp])

theorem accepts_of_run {s : State} (hp : s.phase = .run) : accepts s = false :=
  accepts_of_phase_ne (by simp [hp])

/-! ### The host -/

/-- PUSH extends the message by the four lanes of DATA exactly when the gate accepts it (R149). -/
theorem session_execPush {s t : State} {m : List Byte} (h : Session s m)
    (hx : execPush s = .next t) : Session t (messageAfterCommand s m .push) := by
  rw [messageAfterCommand]
  obtain ⟨he, rfl⟩ | ⟨-, hp, rfl⟩ | ⟨-, hp, rfl⟩ | ⟨he, hp, hb, rfl⟩ := execPush_next hx
  · simpa [accepts_of_err he] using h
  · simpa [accepts_of_run hp] using h.raiseCmdError .busy
  · simpa [accepts_of_closed hp] using h.raiseCmdError .sequence
  · simpa [accepts_of_absorb he hp] using session_push h hp hb

/-- FINAL extends the message by its tail exactly when the gate accepts it (R150). -/
theorem session_execFinal {s t : State} {m : List Byte} {n : BitVec 2} (h : Session s m)
    (hx : execFinal n s = .next t) : Session t (messageAfterCommand s m (.final n)) := by
  rw [messageAfterCommand]
  obtain ⟨he, rfl⟩ | ⟨-, hp, rfl⟩ | ⟨-, hp, rfl⟩ | ⟨he, hp, hb, rfl⟩ := execFinal_next hx
  · simpa [accepts_of_err he] using h
  · simpa [accepts_of_run hp] using h.raiseCmdError .busy
  · simpa [accepts_of_closed hp] using h.raiseCmdError .sequence
  · simpa [accepts_of_absorb he hp] using session_final h n hp hb

/-- A command leads to the session of the message it leaves (R147 to R150). -/
theorem session_command {s t : State} {m : List Byte} {c : Command} (h : Session s m)
    (hx : exec c.instr s = .next t) : Session t (messageAfterCommand s m c) := by
  cases c with
  | nop => cases hx; exact h
  | init => exact .ofInit hx
  | push => exact session_execPush h hx
  | final n => exact session_execFinal h hx

/-- A bus operation that starts no command stays in the session (R132 to R145). -/
theorem session_bus_of_no_command {s t : State} {m : List Byte} {req : BitVec 5} {w : Word}
    (h : Session s m) (hc : commandOf (decodeBus req w) = none)
    (hx : exec (decodeBus req w) s = .next t) : Session t m := by
  obtain ⟨v, rfl⟩ | rfl | ⟨x, rfl⟩ | ⟨v, rfl⟩ | hw := bus_next req w hx
  · exact h.withHostSide s.turns (some v) s.ie s.data
  · exact h
  · exact h.withHostSide s.turns s.rdata x s.data
  · exact h.withHostSide s.turns s.rdata s.ie v
  · rw [hw] at hc hx
    rw [execWrCmd_illegal hc] at hx
    cases hx
    exact h.raiseCmdError .illegalCmd

theorem messageAfter_of_none {i : Instr} (hc : commandOf i = none) (s : State) (m : List Byte) :
    messageAfter i s m = m := by
  rw [messageAfter, hc]

theorem messageAfter_of_some {i : Instr} {c : Command} (hc : commandOf i = some c) (s : State)
    (m : List Byte) : messageAfter i s m = messageAfterCommand s m c := by
  rw [messageAfter, hc]

/-- A bus operation leads to the session of the message it leaves, whether or not it starts a command. -/
theorem session_bus {s t : State} {m : List Byte} {req : BitVec 5} {w : Word} (h : Session s m)
    (hx : exec (decodeBus req w) s = .next t) :
    Session t (messageAfter (decodeBus req w) s m) := by
  cases hc : commandOf (decodeBus req w) with
  | none =>
    rw [messageAfter_of_none hc]
    exact session_bus_of_no_command h hc hx
  | some c =>
    rw [messageAfter_of_some hc]
    exact session_command h (exec_of_commandOf hc s ▸ hx)

/-! ### The step -/

/-- A round is no command. -/
theorem commandOf_decodeRound (n q : BitVec 2) (j : BitVec 4) :
    commandOf (decodeRound n q j) = none := by
  unfold decodeRound
  split_ifs <;> rfl

/-- What a selector decodes to is no command: the engine absorbs nothing (R106). -/
theorem commandOf_of_decodeSel {v : BitVec 9} {i : Instr} (hd : decodeSel v = some i) :
    commandOf i = none := by
  unfold decodeSel at hd
  split_ifs at hd <;> cases hd
  · exact commandOf_decodeRound _ _ _
  all_goals rfl

/-- Settles O57, by where a fetched instruction comes from: the engine's selector leaves the message as
it is, a bus request extends it by what its command absorbs. -/
theorem stepTracksSessionMessage : Obligations.StepTracksSessionMessage := by
  unfold Obligations.StepTracksSessionMessage
  intro s s1 t i m h hf hx
  obtain ⟨ts, rfl, hp, hd⟩ | ⟨ts, req, w, rfl, rfl⟩ := fetch_instr hf
  · rw [messageAfter_of_none (commandOf_of_decodeSel hd)]
    exact session_engine (h.withHostSide ts s.rdata s.ie s.data) hp hd rfl rfl hx
  · exact session_bus (h.withHostSide ts none s.ie s.data) hx

end Sys2Proof.Machine
end

section
/-! The words of the block in MBUF (R73, R74), the reads that change nothing (R78) and the stores that
have no room (R70). -/

namespace Sys2Proof.Machine

/-! ### Reads -/

/-- The answer of an earlier read is not part of what the host can observe (log 2). -/
theorem SameView.withRdata (s : State) (r : Option Word) : SameView s { s with rdata := r } :=
  ⟨rfl, rfl, rfl, rfl, rfl, rfl, rfl, fun _ => ⟨rfl, rfl, rfl, rfl⟩⟩

/-- Settles O13: a read answers a value of the view, and the view does not hold the answer. -/
theorem readsAreIdempotent : Obligations.ReadsAreIdempotent := by
  unfold Obligations.ReadsAreIdempotent
  intro idx s
  obtain ⟨read, hread, hsame⟩ := decodeRead_answers_visible idx
  rw [decodeBus_read]
  have hagain : read { s with rdata := some (read s) } = read s :=
    (hsame _ _ (.withRdata s _)).symm
  refine ⟨read s, hread s, ?_⟩
  rw [hread, hagain]
  rfl

/-! ### Words and the length field -/

/-- A word is its four bytes. -/
theorem word_eq_of_bytes {x y : Word}
    (h : ∀ j, j < 4 → x.extractLsb' (8 * j) 8 = y.extractLsb' (8 * j) 8) : x = y := by
  apply BitVec.eq_of_getLsbD_eq
  intro i hi
  have hbit := congrArg (·.getLsbD (i % 8)) (h (i / 8) (by omega))
  simpa [Nat.mod_lt, Nat.div_add_mod] using hbit

/-- The field of `n` bits from bit `k` on, as a number. -/
theorem extractLsb'_eq_ofNat_div {w : Nat} (v : BitVec w) (k n : Nat) :
    v.extractLsb' k n = BitVec.ofNat n (v.toNat / 2 ^ k) := by
  rw [BitVec.extractLsb', Nat.shiftRight_eq_div_pow]

/-- A field of a field is a field of the whole value. -/
theorem extractLsb'_of_extractLsb' {w : Nat} (v : BitVec w) (a : Nat) {n k l : Nat} (h : k + l ≤ n) :
    (v.extractLsb' a n).extractLsb' k l = v.extractLsb' (a + k) l := by
  apply BitVec.eq_of_getLsbD_eq
  intro i hi
  have hin : k + i < n := by omega
  simp only [BitVec.getLsbD_extractLsb', hi, hin, decide_true, Bool.true_and, Nat.add_assoc]

/-- Word(14 + i) of a block whose last eight bytes are LE64(v) is the i-th 32-bit half of v (R74). -/
theorem word_writeBytes_le64 (m : Memory) (v : BitVec 64) {g : BitVec 4} {i : Nat}
    (hg : g.toNat = 14 + i) :
    Memory.word (Memory.writeBytes m 56 (le64 v)) g = v.extractLsb' (32 * i) 32 := by
  have hlt := g.isLt
  apply word_eq_of_bytes
  intro j hj
  have hbyte : 4 * g.toNat + j - 56 = 4 * i + j := by omega
  rw [word_byte _ _ hj, Memory.read_writeBytes, le64_length, if_pos (by omega), hbyte,
    le64_getD v (by omega), extractLsb'_of_extractLsb' v _ (by omega)]
  congr 1
  omega

/-- Settles O37: the bytes of a word are the block's, and the two halves of the length field are read
back as its last two words. -/
theorem lengthFieldIsLittleEndian : Obligations.LengthFieldIsLittleEndian := by
  unfold Obligations.LengthFieldIsLittleEndian
  refine ⟨fun m g j hj => word_byte m g hj, fun m v => ⟨?_, ?_, fun j hj => ?_⟩⟩
  · rw [word_writeBytes_le64 m v (i := 0) rfl, extractLsb'_eq_ofNat_div]
    simp
  · rw [word_writeBytes_le64 m v (i := 1) rfl, extractLsb'_eq_ofNat_div]
  · rw [le64_getD v hj, extractLsb'_eq_ofNat_div]

/-! ### Stores without room -/

/-- PUSH stores nothing when its four bytes do not fit (R70). -/
theorem execPush_noRoom {s : State} (he : s.err = false) (hp : s.phase = .absorb)
    (hb : 60 < s.bcnt.toNat) : execPush s = .fault .mbufOutOfRange := by
  rw [execPush, gated_of_absorb he hp, ifRoom_neg (by omega)]

/-- FINAL stores nothing when its tail and the terminator do not fit (R70). -/
theorem execFinal_noRoom {s : State} {t : BitVec 2} (he : s.err = false) (hp : s.phase = .absorb)
    (hb : 63 < s.bcnt.toNat + t.toNat) : execFinal t s = .fault .mbufOutOfRange := by
  rw [execFinal, gated_of_absorb he hp, ifRoom_neg (by omega)]

/-- Settles O26: the gate accepts the command, and the room it asks for is missing. -/
theorem storeOutsideMbufFaults : Obligations.StoreOutsideMbufFaults := by
  unfold Obligations.StoreOutsideMbufFaults
  exact fun s he hp => ⟨execPush_noRoom he hp, fun t => execFinal_noRoom he hp⟩

end Sys2Proof.Machine
end

section
/-! What a step takes from the first turn: a bus request (R101), a platform access (R76, R77, R82) or the
engine's selector (R217). -/

namespace Sys2Proof.Machine

/-! ### The first turn -/

theorem fetch_of_bus {s : State} {req : BitVec 5} {w : Word} {ts : List Turn}
    (ht : s.turns = .bus req w :: ts) :
    fetch s = .instr (decodeBus req w) { s with turns := ts, rdata := none } := by
  rw [fetch, ht]
  rfl

theorem fetch_of_access {s : State} {size addr : Nat} {write : Option Word} {ts : List Turn}
    (ht : s.turns = .access size addr write :: ts) :
    fetch s = fetchAccess size addr write { s with turns := ts } := by
  rw [fetch, ht]

theorem fetch_of_engine {s : State} {ts : List Turn} (ht : s.turns = .engine :: ts) :
    fetch s = fetchEngine { s with turns := ts } := by
  rw [fetch, ht]

/-- A step depends on what is fetched only. -/
theorem step_congr {s s' : State} (h : fetch s = fetch s') : step s = step s' := by
  rw [step, step, h]

/-! ### Platform accesses -/

/-- The window is 64 bytes at a multiple of 64 (R82). -/
theorem md5Base_mod : Config.md5Base % 64 = 0 := Nat.mul_mod_right 64 _

theorem md5Base_index_aligned (idx : BitVec 4) : (Config.md5Base + 4 * idx.toNat) % 4 = 0 := by
  have := md5Base_mod
  omega

theorem touchesWindow_iff {size addr : Nat} :
    touchesWindow size addr = true ↔
      addr < Config.md5Base + 64 ∧ Config.md5Base < addr + size := by
  simp [touchesWindow]

theorem touchesWindow_index (idx : BitVec 4) :
    touchesWindow 4 (Config.md5Base + 4 * idx.toNat) = true := by
  have := idx.isLt
  exact touchesWindow_iff.2 ⟨by omega, by omega⟩

/-- The address of index IDX gives IDX back (R76). -/
theorem index_of_address (idx : BitVec 4) :
    BitVec.ofNat 4 ((Config.md5Base + 4 * idx.toNat - Config.md5Base) / 4) = idx := by
  rw [Nat.add_sub_cancel_left, Nat.mul_div_cancel_left _ (by decide), BitVec.ofNat_toNat,
    BitVec.setWidth_eq]

/-- A full aligned word read at the address of IDX is the bus read of IDX (R76, R82). -/
theorem fetchAccess_read (idx : BitVec 4) (s : State) :
    fetchAccess 4 (Config.md5Base + 4 * idx.toNat) none s = fetchBus (0b0#1 ++ idx) 0#32 s := by
  rw [fetchAccess, if_pos (touchesWindow_index idx), if_pos ⟨rfl, md5Base_index_aligned idx⟩]
  simp only [index_of_address]

/-- A full aligned word written at the address of IDX is the bus write to IDX (R76, R82). -/
theorem fetchAccess_write (idx : BitVec 4) (v : Word) (s : State) :
    fetchAccess 4 (Config.md5Base + 4 * idx.toNat) (some v) s = fetchBus (0b1#1 ++ idx) v s := by
  rw [fetchAccess, if_pos (touchesWindow_index idx), if_pos ⟨rfl, md5Base_index_aligned idx⟩]
  simp only [index_of_address]

/-- Any other access with a byte in the window is refused (R77, log 8). -/
theorem fetchAccess_partial {size addr : Nat} (write : Option Word) (s : State)
    (ht : touchesWindow size addr = true) (hw : ¬ (size = 4 ∧ addr % 4 = 0)) :
    fetchAccess size addr write s = .refused .narrowOrMisaligned := by
  rw [fetchAccess, if_pos ht, if_neg hw]

/-- Settles O48: an access fetches what the bus request of its index fetches, or is refused. -/
theorem platformAccessReachesWindow : Obligations.PlatformAccessReachesWindow := by
  unfold Obligations.PlatformAccessReachesWindow
  refine ⟨md5Base_mod, fun s idx ts ht => step_congr ?_, fun s idx v ts ht => step_congr ?_,
    fun s size addr write ts ht hlo hhi hw => ?_⟩
  · rw [fetch_of_access ht, fetchAccess_read]
    rfl
  · rw [fetch_of_access ht, fetchAccess_write]
    rfl
  · have hf := fetch_of_access ht
    rw [fetchAccess_partial _ _ (touchesWindow_iff.2 ⟨hlo, hhi⟩) hw] at hf
    rw [step, hf]

/-! ### Decoded turns -/

/-- CMD decoded as an encoded operation. -/
theorem decodeCmd_of_decode {w : Word} {i : Instr} (h : decode (.cmd w) = .ok i) :
    ∃ c, decodeCmd w = some c ∧ i = c.instr := by
  simp only [decode] at h
  split at h
  · next c hc => cases h; exact ⟨c, hc, rfl⟩
  · cases h

theorem step_of_bus {s : State} {req : BitVec 5} {w : Word} {ts : List Turn}
    (ht : s.turns = .bus req w :: ts) :
    step s = exec (decodeBus req w) { s with turns := ts, rdata := none } :=
  step_of_instr (fetch_of_bus ht)

/-- Settles O47, by the agent of the turn: a bus request, a CMD word written to CMD, the engine. -/
theorem stepRunsDecodedInstruction : Obligations.StepRunsDecodedInstruction := by
  unfold Obligations.StepRunsDecodedInstruction
  refine ⟨fun s req w ts i ht hd => ?_, fun s w ts i ht hd => ?_, fun s ts i ht hp hd => ?_⟩
  · cases hd
    exact step_of_bus ht
  · obtain ⟨c, hc, rfl⟩ := decodeCmd_of_decode hd
    exact (step_of_bus ht).trans (execWrCmd_legal hc _)
  · have hf := fetch_of_engine ht
    rw [fetchEngine_of_sel (s := { s with turns := ts }) hp (decodeSel_of_decode hd)] at hf
    exact step_of_instr hf

end Sys2Proof.Machine
end

section
/-! The decoder and the encoder of the three formats (R100 to R109): each undoes the other, what the words
of CMD and the selectors decode to, and the fault of a selector that R109 excludes. -/

namespace Sys2Proof.Machine

/-! ### Decoding what was encoded -/

/-- The round trips of the single instructions, together. -/
theorem decode_encode : ∀ i : Instr, Laws.RoundTrip.Statement i
  | .rdId => Laws.RoundTrip.rdId
  | .rdCtrl => Laws.RoundTrip.rdCtrl
  | .rdStatus => Laws.RoundTrip.rdStatus
  | .rdCmd => Laws.RoundTrip.rdCmd
  | .rdData => Laws.RoundTrip.rdData
  | .rdLenLo => Laws.RoundTrip.rdLenLo
  | .rdLenHi => Laws.RoundTrip.rdLenHi
  | .rdRsv7 => Laws.RoundTrip.rdRsv7
  | .rdDigest k => Laws.RoundTrip.rdDigest k
  | .rdRsvHigh k => Laws.RoundTrip.rdRsvHigh k
  | .wrRoId v => Laws.RoundTrip.wrRoId v
  | .wrCtrl v => Laws.RoundTrip.wrCtrl v
  | .wrRoStatus v => Laws.RoundTrip.wrRoStatus v
  | .wrCmd v => Laws.RoundTrip.wrCmd v
  | .wrData v => Laws.RoundTrip.wrData v
  | .wrRoLenLo v => Laws.RoundTrip.wrRoLenLo v
  | .wrRoLenHi v => Laws.RoundTrip.wrRoLenHi v
  | .wrRsv7 v => Laws.RoundTrip.wrRsv7 v
  | .wrRoDigest k v => Laws.RoundTrip.wrRoDigest k v
  | .wrRsvHigh k v => Laws.RoundTrip.wrRsvHigh k v
  | .nop => Laws.RoundTrip.nop
  | .init => Laws.RoundTrip.init
  | .push => Laws.RoundTrip.push
  | .final t => Laws.RoundTrip.final t
  | .roundF n j => Laws.RoundTrip.roundF n j
  | .roundG n j => Laws.RoundTrip.roundG n j
  | .roundH n j => Laws.RoundTrip.roundH n j
  | .roundI n j => Laws.RoundTrip.roundI n j
  | .accumCont => Laws.RoundTrip.accumCont
  | .accumPad2 => Laws.RoundTrip.accumPad2
  | .accumLast => Laws.RoundTrip.accumLast

/-- Settles O2, by the round trip of each instruction. -/
theorem decodeEncodeRoundTrip : Obligations.DecodeEncodeRoundTrip := by
  unfold Obligations.DecodeEncodeRoundTrip
  exact decode_encode

/-- Settles O1: the words of the nine instructions are their encodings, the other three are rejected. -/
theorem specWordsDecode : Obligations.SpecWordsDecode := by
  unfold Obligations.SpecWordsDecode
  exact ⟨decode_encode .rdId rfl, decode_encode (.rdDigest 2#2) rfl,
    decode_encode (.wrCmd 0x00000002#32) rfl, decode_encode (.wrRsvHigh 1#2 5#32) rfl,
    decode_encode .init rfl, decode_encode (.final 2#2) rfl, by decide,
    decode_encode (.roundF 0#2 5#4) rfl, decode_encode (.roundI 2#2 15#4) rfl,
    decode_encode .accumPad2 rfl, by decide, by decide⟩

/-! ### Format BUS -/

/-- The rows of the register map: eight single indices and two groups of four (R79). -/
theorem index_cases (idx : BitVec 4) :
    idx = 0#4 ∨ idx = 1#4 ∨ idx = 2#4 ∨ idx = 3#4 ∨ idx = 4#4 ∨ idx = 5#4 ∨ idx = 6#4 ∨ idx = 7#4 ∨
    (∃ k : BitVec 2, idx = 0b10#2 ++ k) ∨ ∃ k : BitVec 2, idx = 0b11#2 ++ k := by
  revert idx; decide

/-- Every index has a read (R101). -/
theorem exists_encode_eq_encodeRead (idx : BitVec 4) :
    ∃ i : Instr, i.wf = true ∧ encode i = encodeRead idx := by
  obtain rfl | rfl | rfl | rfl | rfl | rfl | rfl | rfl | ⟨k, rfl⟩ | ⟨k, rfl⟩ := index_cases idx
  · exact ⟨.rdId, rfl, rfl⟩
  · exact ⟨.rdCtrl, rfl, rfl⟩
  · exact ⟨.rdStatus, rfl, rfl⟩
  · exact ⟨.rdCmd, rfl, rfl⟩
  · exact ⟨.rdData, rfl, rfl⟩
  · exact ⟨.rdLenLo, rfl, rfl⟩
  · exact ⟨.rdLenHi, rfl, rfl⟩
  · exact ⟨.rdRsv7, rfl, rfl⟩
  · exact ⟨.rdDigest k, rfl, rfl⟩
  · exact ⟨.rdRsvHigh k, rfl, rfl⟩

/-- Every index has a write (R101). -/
theorem exists_encode_eq_encodeWrite (idx : BitVec 4) (v : Word) :
    ∃ i : Instr, i.wf = true ∧ encode i = encodeWrite idx v := by
  obtain rfl | rfl | rfl | rfl | rfl | rfl | rfl | rfl | ⟨k, rfl⟩ | ⟨k, rfl⟩ := index_cases idx
  · exact ⟨.wrRoId v, rfl, rfl⟩
  · exact ⟨.wrCtrl v, rfl, rfl⟩
  · exact ⟨.wrRoStatus v, rfl, rfl⟩
  · exact ⟨.wrCmd v, rfl, rfl⟩
  · exact ⟨.wrData v, rfl, rfl⟩
  · exact ⟨.wrRoLenLo v, rfl, rfl⟩
  · exact ⟨.wrRoLenHi v, rfl, rfl⟩
  · exact ⟨.wrRsv7 v, rfl, rfl⟩
  · exact ⟨.wrRoDigest k v, rfl, rfl⟩
  · exact ⟨.wrRsvHigh k v, rfl, rfl⟩

/-- A request word is WE and an index (R101). -/
theorem request_cases (req : BitVec 5) :
    (req.getLsbD 4 = false ∧ ∃ idx : BitVec 4, req = 0b0#1 ++ idx) ∨
    (req.getLsbD 4 = true ∧ ∃ idx : BitVec 4, req = 0b1#1 ++ idx) := by
  revert req; decide

/-- A read decodes the same whatever stands in WDATA (R101). -/
theorem decode_read (idx : BitVec 4) (w : Word) :
    decode (.bus (0b0#1 ++ idx) w) = decode (encodeRead idx) := by
  simp only [encodeRead, decode, decodeBus_read]

/-- Every request is the encoding of what it decodes to, as some instruction has that encoding. -/
theorem exists_decode_bus (req : BitVec 5) (w : Word) :
    ∃ i : Instr, decode (.bus req w) = .ok i ∧
      encode i = .bus req (if req.getLsbD 4 then w else 0#32) := by
  obtain ⟨hwe, idx, rfl⟩ | ⟨hwe, idx, rfl⟩ := request_cases req
  · obtain ⟨i, hwf, he⟩ := exists_encode_eq_encodeRead idx
    refine ⟨i, ?_, by rw [he, hwe]; rfl⟩
    rw [decode_read, ← he, decode_encode i hwf]
  · obtain ⟨i, hwf, he⟩ := exists_encode_eq_encodeWrite idx w
    refine ⟨i, ?_, by rw [he, hwe]; rfl⟩
    rw [← encodeWrite, ← he, decode_encode i hwf]

/-! ### Format CMD -/

theorem encode_command (c : Command) : encode c.instr = .cmd c.word := by
  cases c <;> rfl

/-- The CMD words that decode are the words of the commands (R104). -/
theorem exists_decode_cmd_iff {w : Word} :
    (∃ i, decode (.cmd w) = .ok i) ↔ ∃ c : Command, w = c.word := by
  constructor
  · rintro ⟨i, hd⟩
    obtain ⟨c, hc, -⟩ := decodeCmd_of_decode hd
    exact ⟨c, word_of_decodeCmd hc⟩
  · rintro ⟨c, rfl⟩
    exact ⟨c.instr, by rw [decode, decodeCmd_word]⟩

/-- The seven commands: FINAL counts once for each TAIL (R103, R105). -/
def allCommands : List Command :=
  [.nop, .init, .push, .final 0#2, .final 1#2, .final 2#2, .final 3#2]

theorem mem_allCommands (c : Command) : c ∈ allCommands := by
  cases c with
  | nop => decide
  | init => decide
  | push => decide
  | final t => revert t; decide

/-- The legal CMD words as R104 lists them. -/
theorem allCommands_words :
    allCommands.map Command.word =
      [0x00000000#32, 0x00000001#32, 0x00000002#32,
       0x00000003#32, 0x00000013#32, 0x00000023#32, 0x00000033#32] := by
  decide

theorem exists_command_word_iff {w : Word} :
    (∃ c : Command, w = c.word) ↔ w ∈ allCommands.map Command.word := by
  simp [mem_allCommands, eq_comm]

/-- R104's condition on OP, TAIL and RSV, with the fields as numbers. -/
theorem mem_command_words_iff {w : Word} :
    w ∈ allCommands.map Command.word ↔
      w.toNat / 64 = 0 ∧ ((w.toNat % 16 ≤ 2 ∧ w.toNat / 16 % 4 = 0) ∨ w.toNat % 16 = 3) := by
  simp only [allCommands_words, List.mem_cons, List.not_mem_nil, or_false, ← BitVec.toNat_inj,
    BitVec.toNat_ofNat, Nat.reducePow, Nat.reduceMod]
  omega

/-- A word that does not decode is no command. -/
theorem decodeCmd_eq_none {w : Word} (h : ¬ ∃ i, decode (.cmd w) = .ok i) : decodeCmd w = none := by
  cases hd : decodeCmd w with
  | none => rfl
  | some c => exact absurd (exists_decode_cmd_iff.2 ⟨c, word_of_decodeCmd hd⟩) h

/-- Settles O4: the legal words are those of the seven commands; any other word raises ILLEGAL_CMD. -/
theorem exactlySevenLegalCommands : Obligations.ExactlySevenLegalCommands := by
  unfold Obligations.ExactlySevenLegalCommands
  intro w
  have hlegal := exists_decode_cmd_iff.trans (exists_command_word_iff (w := w))
  exact ⟨allCommands_words ▸ hlegal, hlegal.trans mem_command_words_iff,
    fun s h => execWrCmd_illegal (decodeCmd_eq_none h) s⟩

/-! ### Format SEL -/

/-- A selector is NEXT and RND (R106). -/
theorem selector_fields (v : BitVec 9) : ∃ (n : BitVec 2) (r : BitVec 7), v = n ++ r :=
  ⟨v.extractLsb' 7 2, v.extractLsb' 0 7, by revert v; decide⟩

/-- RND below 64 is its quarter RND[5:4] and its low part RND[3:0] (R106). -/
theorem rnd_eq_quarter_append {q : BitVec 2} {r : BitVec 7} (h : r.toNat / 16 = q.toNat) :
    r = 0b0#1 ++ q ++ BitVec.ofNat 4 r.toNat := by
  revert q r; decide

theorem exists_quarter {r : BitVec 7} (hr : r.toNat < 64) : ∃ q : BitVec 2, r.toNat / 16 = q.toNat :=
  ⟨BitVec.ofNat 2 (r.toNat / 16), by rw [BitVec.toNat_ofNat]; omega⟩

theorem decodeSel_round (n q : BitVec 2) (j : BitVec 4) :
    decodeSel (n ++ (0b0#1 ++ q ++ j)) = some (decodeRound n q j) := by
  revert n q j; decide

theorem encode_decodeRound (n q : BitVec 2) (j : BitVec 4) :
    encode (decodeRound n q j) = .sel (n ++ (0b0#1 ++ q ++ j)) := by
  revert n q j; decide

/-- RND below 64 selects the round of its quarter, whatever NEXT holds (R106). -/
theorem decodeSel_of_quarter (n : BitVec 2) {q : BitVec 2} {r : BitVec 7}
    (h : r.toNat / 16 = q.toNat) :
    decodeSel (n ++ r) = some (decodeRound n q (BitVec.ofNat 4 r.toNat)) := by
  conv_lhs => rw [rnd_eq_quarter_append h]
  exact decodeSel_round n q _

/-- A round's selector is the encoding of what it decodes to. -/
theorem encode_of_decodeSel_round {n : BitVec 2} {r : BitVec 7} {i : Instr} (hr : r.toNat < 64)
    (hd : decodeSel (n ++ r) = some i) : encode i = .sel (n ++ r) := by
  obtain ⟨q, hq⟩ := exists_quarter hr
  rw [decodeSel_of_quarter n hq] at hd
  cases hd
  rw [encode_decodeRound, ← rnd_eq_quarter_append hq]

/-- A selector that decodes is the encoding of what it decodes to, round or accumulation. -/
theorem encode_of_decodeSel {v : BitVec 9} {i : Instr} (hd : decodeSel v = some i) :
    encode i = .sel v := by
  obtain ⟨n, r, rfl⟩ := selector_fields v
  obtain ⟨hr, -⟩ | ⟨rfl, rfl, hs⟩ | ⟨rfl, rfl, hs⟩ | ⟨rfl, rfl, hs⟩ | ⟨hs, -⟩ := decodeSel_cases n r
  · exact encode_of_decodeSel_round hr hd
  · cases hs.symm.trans hd; rfl
  · cases hs.symm.trans hd; rfl
  · cases hs.symm.trans hd; rfl
  · cases hs.symm.trans hd

/-- Settles O3, format by format. -/
theorem encodeDecodeRoundTrip : Obligations.EncodeDecodeRoundTrip := by
  unfold Obligations.EncodeDecodeRoundTrip
  refine ⟨exists_decode_bus, fun w i hd => ?_, fun v i hd => encode_of_decodeSel (decodeSel_of_decode hd)⟩
  obtain ⟨c, hc, rfl⟩ := decodeCmd_of_decode hd
  rw [encode_command, ← word_of_decodeCmd hc]

/-- A selector that is no encoding is rejected by name (R109). -/
theorem decode_sel_none {v : BitVec 9} (h : decodeSel v = none) :
    decode (.sel v) = .error .unreachableSelector := by
  rw [decode, h]

theorem decode_sel_some {v : BitVec 9} {i : Instr} (h : decodeSel v = some i) :
    decode (.sel v) = .ok i := by
  rw [decode, h]

/-- No accumulation has NEXT = 3, and RND above 64 selects nothing (R109). -/
theorem decodeSel_eq_none {n : BitVec 2} {r : BitVec 7} (hr : 64 ≤ r.toNat)
    (h : 65 ≤ r.toNat ∨ n = 3#2) : decodeSel (n ++ r) = none := by
  obtain ⟨hr', -⟩ | ⟨rfl, rfl, -⟩ | ⟨rfl, rfl, -⟩ | ⟨rfl, rfl, -⟩ | ⟨hs, -⟩ := decodeSel_cases n r
  · omega
  · simp at h
  · simp at h
  · simp at h
  · exact hs

/-- Settles O5: the four quarters, the accumulations at RND = 64, and the selectors of R109. -/
theorem selectorSelectsMicroOperation : Obligations.SelectorSelectsMicroOperation := by
  unfold Obligations.SelectorSelectsMicroOperation
  intro n r
  have hround (q : BitVec 2) (h : r.toNat / 16 = q.toNat) := decode_sel_some (decodeSel_of_quarter n h)
  have haccum (h : r.toNat = 64) : r = 64#7 := BitVec.eq_of_toNat_eq h
  refine ⟨fun h => hround 0#2 (by bv_omega), fun h h' => hround 1#2 (by bv_omega),
    fun h h' => hround 2#2 (by bv_omega), fun h h' => hround 3#2 (by bv_omega),
    fun h hn => ?_, fun h hn => ?_, fun h hn => ?_,
    fun h hn => decode_sel_none (decodeSel_eq_none (by omega) (.inr hn)),
    fun h => decode_sel_none (decodeSel_eq_none (by omega) (.inl h))⟩
  all_goals rw [haccum h, hn]; exact decode_sel_some (decodeSel_accum _)

/-! ### The fault of R109 -/

theorem fetchEngine_of_no_sel {s : State} (hp : s.phase = .run) (hd : decodeSel s.sel = none) :
    fetchEngine s = .fault .unreachableSelector := by
  rw [fetchEngine, if_pos hp, hd]

theorem step_of_fault {s : State} {f : Fault} (h : fetch s = .fault f) : step s = .fault f := by
  rw [step, h]

/-- The engine's turn in RUN with RND above 64 or NEXT = 3 faults: a round's selector when it runs, any
other when it is fetched. -/
theorem step_unreachable {s s1 : State} (hf : fetch s = fetchEngine s1) (hp : s1.phase = .run)
    (h : 65 ≤ s1.rnd.toNat ∨ s1.nxt = 3#2) : step s = .fault .unreachableSelector := by
  by_cases hr : s1.rnd.toNat < 64
  · have hn : s1.nxt = 3#2 := h.resolve_left (by omega)
    obtain ⟨q, hq⟩ := exists_quarter hr
    have hd := decodeSel_of_quarter s1.nxt hq
    rw [step_of_instr (hf.trans (fetchEngine_of_sel hp hd)), exec_decodeRound, hn,
      selectedRound_illegal]
  · exact step_of_fault (hf.trans (fetchEngine_of_no_sel hp (decodeSel_eq_none (by omega) h)))

/-- Settles O40: the engine's turn, given or with no turn left, and the four rounds. -/
theorem unreachableSelectorFaults : Obligations.UnreachableSelectorFaults := by
  unfold Obligations.UnreachableSelectorFaults
  refine ⟨fun s ts hp h => ⟨?_, ?_⟩, fun s j =>
    ⟨selectedRound_illegal s (roundIndex 0#2 j), selectedRound_illegal s (roundIndex 1#2 j),
      selectedRound_illegal s (roundIndex 2#2 j), selectedRound_illegal s (roundIndex 3#2 j)⟩⟩
  · exact step_unreachable (s1 := { s with turns := ts }) rfl hp h
  · exact step_unreachable (s1 := { s with turns := [] }) rfl hp h

end Sys2Proof.Machine
end

section
/-! The bus reads (R132 to R140) and the bus writes other than WR_CMD (R141, R142, R144, R145): what each
request decodes to, the value or the register it gives, and what stays. -/

namespace Sys2Proof.Machine

/-! ### Requests of the register groups -/

/-- A request of a group of four registers, as the opcode table writes it, is WE and an index (R101). -/
theorem decode_group (we : BitVec 1) (hi k : BitVec 2) (w : Word) :
    decode (.bus (we ++ hi ++ k) w) = decode (.bus (we ++ (hi ++ k)) w) := by
  have hreq : (we ++ hi ++ k : BitVec 5) = we ++ (hi ++ k) := by revert we hi k; decide
  rw [hreq]

theorem decode_readGroup (hi k : BitVec 2) (w : Word) :
    decode (.bus (0b0#1 ++ hi ++ k) w) = decode (encodeRead (hi ++ k)) :=
  (decode_group 0b0#1 hi k w).trans (decode_read (hi ++ k) w)

theorem decode_writeGroup (hi k : BitVec 2) (v : Word) :
    decode (.bus (0b1#1 ++ hi ++ k) v) = decode (encodeWrite (hi ++ k) v) :=
  decode_group 0b1#1 hi k v

/-! ### The two halves of LEN -/

theorem lenLo_eq (s : State) : s.lenLo = BitVec.ofNat 32 s.len.toNat := by
  rw [State.lenLo, extractLsb'_eq_ofNat_div, Nat.pow_zero, Nat.div_one]

theorem lenHi_eq (s : State) : s.lenHi = BitVec.ofNat 32 (s.len.toNat / 2 ^ 32) :=
  extractLsb'_eq_ofNat_div s.len 32 32

/-- Every micro-operation leaves the error state, LEN, the registers that the host writes and the model's
own fields (R204, R214 to R216, R310). -/
theorem engine_frame {s1 s t : State} {i : Instr} (hd : decodeSel s1.sel = some i)
    (hx : exec i s = .next t) :
    t.err = s.err ∧ t.errcode = s.errcode ∧ t.len = s.len ∧ t.data = s.data ∧ t.ie = s.ie ∧
      t.turns = s.turns ∧ t.rdata = s.rdata := by
  obtain ⟨-, -, rfl⟩ | ⟨-, -, rfl⟩ | ⟨-, -, rfl⟩ | ⟨-, -, rfl⟩ := engine_cases hd hx <;>
    exact ⟨rfl, rfl, rfl, rfl, rfl, rfl, rfl⟩

/-- Settles O11: the two fields of LEN as numbers, and the frame of the micro-operations. -/
theorem lenReadsReturnHalves : Obligations.LenReadsReturnHalves := by
  unfold Obligations.LenReadsReturnHalves
  refine ⟨fun w => ⟨(decode_read 5#4 w).trans (decode_encode .rdLenLo rfl),
    (decode_read 6#4 w).trans (decode_encode .rdLenHi rfl)⟩,
    fun s => ⟨?_, ?_⟩, fun s s1 t i hf hx => ?_⟩
  · rw [← lenLo_eq]; rfl
  · rw [← lenHi_eq]; rfl
  · obtain ⟨rfl, -, hd⟩ := fetchEngine_instr hf
    obtain ⟨-, -, hlen, -⟩ := engine_frame hd hx
    exact hlen

/-! ### STATUS -/

theorem flagWord_getElem (x : Bool) (i : Nat) (hi : i < 32) :
    (flagWord x)[i] = (decide (i = 0) && x) := by
  cases x <;> simp [flagWord]

/-- What stands at bit `i` of STATUS: each field at its own offset, zeros between them (R41, R134). -/
def State.statusBit (s : State) (i : Nat) : Bool :=
  if i = 0 then s.busy
  else if i = 1 then s.isDone
  else if i = 2 then s.err
  else if i < 4 then false
  else if i < 8 then s.errcode.getLsbD (i - 4)
  else if i < 16 then s.phase.bits.getLsbD (i - 8)
  else s.bcnt.getLsbD (i - 16)

theorem status_getLsbD (s : State) {i : Nat} (hi : i < 32) : s.status.getLsbD i = s.statusBit i := by
  unfold State.status
  interval_cases i <;> simp [State.statusBit, flagWord_getElem]

/-- The field of `n` bits from bit `k` of STATUS on, by its bits. -/
theorem status_field (s : State) {k n : Nat} {f : BitVec n} (hk : k + n ≤ 32)
    (h : ∀ i, i < n → s.statusBit (k + i) = f.getLsbD i) : s.status.extractLsb' k n = f := by
  apply BitVec.eq_of_getLsbD_eq
  intro i hi
  rw [BitVec.getLsbD_extractLsb', status_getLsbD s (by omega), h i hi, decide_eq_true hi,
    Bool.true_and]

theorem status_errcode (s : State) : s.status.extractLsb' 4 4 = s.errcode :=
  status_field s (by decide) fun i hi => by interval_cases i <;> rfl

theorem status_phase (s : State) : s.status.extractLsb' 8 2 = s.phase.bits :=
  status_field s (by decide) fun i hi => by interval_cases i <;> rfl

theorem status_bcnt (s : State) : s.status.extractLsb' 16 7 = s.bcnt :=
  status_field s (by decide) fun i hi => by interval_cases i <;> rfl

/-- PHASE has two bits, so bits 15:10 are 0 (R41). -/
theorem status_above_phase (s : State) : s.status.extractLsb' 10 6 = 0#6 :=
  status_field s (by decide) fun i hi => by interval_cases i <;> simp [State.statusBit]

/-- BCNT has seven bits, so bits 31:23 are 0 (R41). -/
theorem status_above_bcnt (s : State) : s.status.extractLsb' 23 9 = 0#9 :=
  status_field s (by decide) fun i hi => by interval_cases i <;> simp [State.statusBit]

/-- R134's word writes DONE as 2 and BUSY as 1. -/
theorem status_eq (s : State) :
    s.status = s.bcnt.setWidth 32 <<< 16 ||| s.phase.bits.setWidth 32 <<< 8 |||
      s.errcode.setWidth 32 <<< 4 ||| (if s.err then 1#32 else 0#32) <<< 2 |||
      (if s.phase = .done then 2#32 else 0#32) ||| (if s.phase = .run then 1#32 else 0#32) := by
  have hdone : flagWord s.isDone <<< 1 = if s.phase = .done then 2#32 else 0#32 := by
    by_cases hp : s.phase = .done <;> simp [State.isDone, flagWord, hp]
  have hbusy : flagWord s.busy = if s.phase = .run then 1#32 else 0#32 := by
    by_cases hp : s.phase = .run <;> simp [State.busy, flagWord, hp]
  rw [State.status, hdone, hbusy, flagWord]

/-- Settles O8: the word as the rule writes it, and its fields. -/
theorem statusReadPacksFields : Obligations.StatusReadPacksFields := by
  unfold Obligations.StatusReadPacksFields
  refine ⟨fun w => (decode_read 2#4 w).trans (decode_encode .rdStatus rfl), fun s => ?_⟩
  have hphase {p : Phase} (hp : s.phase = p) : s.status.extractLsb' 8 2 = p.bits := hp ▸ status_phase s
  exact ⟨s.status, rfl, status_eq s, status_getLsbD s (by decide), status_getLsbD s (by decide),
    status_getLsbD s (by decide), status_getLsbD s (by decide), status_errcode s,
    hphase, hphase, hphase, hphase, status_phase s, status_above_phase s, status_bcnt s,
    status_above_bcnt s⟩

/-! ### The other reads -/

/-- Settles O6. -/
theorem idReadReturnsConstant : Obligations.IdReadReturnsConstant := by
  unfold Obligations.IdReadReturnsConstant
  exact ⟨fun w => (decode_read 0#4 w).trans (decode_encode .rdId rfl), fun s => rfl⟩

/-- Settles O7: CTRL as read is the flag IE as a word. -/
theorem ctrlReadReturnsIe : Obligations.CtrlReadReturnsIe := by
  unfold Obligations.CtrlReadReturnsIe
  exact ⟨fun w => (decode_read 1#4 w).trans (decode_encode .rdCtrl rfl), fun s => rfl⟩

/-- Settles O9: CMD, index 7 and the group 11kk. -/
theorem cmdAndReservedReadZero : Obligations.CmdAndReservedReadZero := by
  unfold Obligations.CmdAndReservedReadZero
  exact ⟨fun w => ⟨(decode_read 3#4 w).trans (decode_encode .rdCmd rfl),
      (decode_read 7#4 w).trans (decode_encode .rdRsv7 rfl)⟩,
    fun k w => (decode_readGroup 0b11#2 k w).trans (decode_encode (.rdRsvHigh k) rfl),
    fun s => ⟨rfl, rfl, fun k => rfl⟩⟩

/-- Settles O10. -/
theorem dataReadReturnsData : Obligations.DataReadReturnsData := by
  unfold Obligations.DataReadReturnsData
  exact ⟨fun w => (decode_read 4#4 w).trans (decode_encode .rdData rfl), fun s => rfl⟩

/-- In DONE the digest registers show the chaining state (R46). -/
theorem digestWord_of_done {s : State} (hp : s.phase = .done) (k : BitVec 2) :
    s.digestWord k = s.chain k :=
  if_pos hp

/-- In every other phase they read 0 (R46). -/
theorem digestWord_of_not_done {s : State} (hp : s.phase ≠ .done) (k : BitVec 2) :
    s.digestWord k = 0#32 :=
  if_neg hp

theorem exec_rdDigest (k : BitVec 2) (s : State) :
    exec (.rdDigest k) s = .next { s with rdata := some (s.digestWord k) } := rfl

/-- Settles O12: DIGESTk is Hk in DONE and 0 in every other phase. -/
theorem digestReadOnlyWhenDone : Obligations.DigestReadOnlyWhenDone := by
  unfold Obligations.DigestReadOnlyWhenDone
  refine ⟨fun k w => (decode_readGroup 0b10#2 k w).trans (decode_encode (.rdDigest k) rfl),
    fun s => ⟨fun hp k => ?_, fun hp => ?_⟩⟩
  · rw [exec_rdDigest, digestWord_of_not_done hp]
  · simp only [exec_rdDigest, digestWord_of_done hp]
    exact ⟨rfl, rfl, rfl, rfl⟩

/-! ### Writes -/

/-- The interrupt output as a condition on the state (R311). -/
theorem irq_eq_true_iff {s : State} :
    s.irq = true ↔ s.ie = true ∧ (s.phase = .done ∨ s.err = true) := by
  simp [State.irq, State.isDone]

/-- Settles O15: irq is a function of the state after the write. -/
theorem ctrlWriteKeepsBitZero : Obligations.CtrlWriteKeepsBitZero := by
  unfold Obligations.CtrlWriteKeepsBitZero
  exact ⟨fun v => decode_encode (.wrCtrl v) rfl,
    fun v s => ⟨_, rfl, rfl, fun hv hcause => irq_eq_true_iff.2 ⟨hv, hcause⟩⟩⟩

/-- Settles O16. -/
theorem dataWriteStagesWord : Obligations.DataWriteStagesWord := by
  unfold Obligations.DataWriteStagesWord
  exact ⟨fun v => decode_encode (.wrData v) rfl, fun v s => rfl⟩

/-- Settles O17: the five single indices and the groups 10kk and 11kk. -/
theorem readOnlyAndReservedWritesIgnored : Obligations.ReadOnlyAndReservedWritesIgnored := by
  unfold Obligations.ReadOnlyAndReservedWritesIgnored
  exact ⟨fun v => ⟨decode_encode (.wrRoId v) rfl, decode_encode (.wrRoStatus v) rfl,
      decode_encode (.wrRoLenLo v) rfl, decode_encode (.wrRoLenHi v) rfl, decode_encode (.wrRsv7 v) rfl,
      fun k => ⟨(decode_writeGroup 0b10#2 k v).trans (decode_encode (.wrRoDigest k v) rfl),
        (decode_writeGroup 0b11#2 k v).trans (decode_encode (.wrRsvHigh k v) rfl)⟩⟩,
    fun v s => ⟨rfl, rfl, rfl, rfl, rfl, fun k => ⟨rfl, rfl⟩⟩⟩

end Sys2Proof.Machine
end

section
/-! The commands (R146 to R150): a legal word runs its command, the gate refuses, INIT opens a session, and
what PUSH and FINAL leave in the block, byte by byte. -/

namespace Sys2Proof.Machine

/-! ### The bytes that PUSH and FINAL store -/

section
variable (m : Memory) (p : Nat) (v : Word) {t : Nat} (ht : t ≤ 4)
include ht

/-- Lane j of DATA stands at its place after a store of the first t lanes (R72). -/
theorem read_writeLanes {j : Nat} (hj : j < t) :
    Memory.read (Memory.writeBytes m p (dataLanes v t)) (p + j) = v.extractLsb' (8 * j) 8 := by
  rw [Memory.read_writeBytes, dataLanes_length v ht, if_pos (by omega), Nat.add_sub_cancel_left,
    dataLanes_getD v ht hj]

/-- A store of the first t lanes leaves every other byte. -/
theorem read_writeLanes_other {q : Nat} (h : q < p ∨ p + t ≤ q) :
    Memory.read (Memory.writeBytes m p (dataLanes v t)) q = Memory.read m q :=
  Memory.read_writeBytes_other m _ (by rwa [dataLanes_length v ht])

end

section
variable (m : Memory) {b : Nat} (len : BitVec 64) (hb : b < 64)
include hb

/-- PadFinal leaves what stands before the terminator (R172). -/
theorem read_padFinal_outside {p : Nat} (hp : p < b ∨ 64 ≤ p) :
    Memory.read (padFinal m b len) p = Memory.read m p := by
  rw [read_padFinal m b len hb, if_pos hp]

theorem read_padFinal_terminator : Memory.read (padFinal m b len) b = 0x80#8 := by
  rw [read_padFinal m b len hb, if_neg (by omega), if_pos rfl]

/-- Zeros follow the terminator, to the length field where there is one (R172). -/
theorem read_padFinal_zero {p : Nat} (h1 : b < p) (h2 : p ≤ 63) (h3 : b ≤ 55 → p ≤ 55) :
    Memory.read (padFinal m b len) p = 0x00#8 := by
  rw [read_padFinal m b len hb, if_neg (by omega), if_neg (by omega), if_neg (by omega)]

/-- The length field is LE64 at bytes 56 to 63 (R74, R172). -/
theorem read_padFinal_length (h : b ≤ 55) {j : Nat} (hj : j < 8) :
    Memory.read (padFinal m b len) (56 + j) = len.extractLsb' (8 * j) 8 := by
  rw [read_padFinal m b len hb, if_neg (by omega), if_neg (by omega), if_pos (by omega),
    Nat.add_sub_cancel_left, le64_getD len hj]

end

theorem padNext_bits (b : Nat) : (padNext b).bits = if b ≤ 55 then 2#2 else 1#2 := by
  unfold padNext
  split <;> rfl

/-! ### The gate -/

theorem exec_push (s : State) : exec .push s = s.gated fun s => s.ifRoom 4 (.next s.pushed) := rfl

theorem exec_final (t : BitVec 2) (s : State) :
    exec (.final t) s = s.gated fun s => s.ifRoom (t.toNat + 1) (.next (s.finalised t)) := rfl

/-- What a gated command does when the gate does not accept it (R146, R304, R305, R308). -/
theorem exec_refused {i : Instr} {s : State} {k : State → Host.Outcome State Fault Refusal}
    (hi : exec i s = s.gated k) :
    (s.err = true → exec i s = .next s) ∧
    (s.err = false → s.phase = .run → exec i s = .next { s with err := true, errcode := 2#4 }) ∧
    (s.err = false → s.phase = .idle ∨ s.phase = .done →
      exec i s = .next { s with err := true, errcode := 3#4 }) := by
  rw [hi]
  refine ⟨gated_of_err, fun he hp => ?_, fun he hp => ?_⟩
  · rw [gated_of_run he hp, raiseCmdError_of_clear s _ he, code_busy]
  · rw [gated_of_closed he hp, raiseCmdError_of_clear s _ he, code_sequence]

/-! ### PUSH and FINAL -/

theorem pushed_len (s : State) : s.pushed.len = s.len + 32#64 := by
  unfold State.pushed
  split <;> rfl

/-- Settles O22: the gate, and the four lanes of DATA in the block. -/
theorem pushAbsorbsFourBytes : Obligations.PushAbsorbsFourBytes := by
  unfold Obligations.PushAbsorbsFourBytes
  refine ⟨decode_encode .push rfl, fun s => exec_refused (exec_push s), fun s he hp hb => ?_⟩
  exact ⟨Memory.writeBytes s.mbuf s.bcnt.toNat (dataLanes s.data 4), execPush_accepted he hp hb,
    fun j hj => read_writeLanes s.mbuf s.bcnt.toNat s.data (Nat.le_refl 4) hj,
    fun p h => read_writeLanes_other s.mbuf s.bcnt.toNat s.data (Nat.le_refl 4) h⟩

/-- Settles O23: the tail lanes stand before the terminator, and PadFinal fills the rest of the block. -/
theorem finalPadsAndStartsBlock : Obligations.FinalPadsAndStartsBlock := by
  unfold Obligations.FinalPadsAndStartsBlock
  refine ⟨fun t => decode_encode (.final t) rfl, fun s t => exec_refused (exec_final t s), ?_⟩
  intro s t b len' he hp rfl hb rfl
  have ht : t.toNat ≤ 4 := by omega
  set tailed := Memory.writeBytes s.mbuf s.bcnt.toNat (dataLanes s.data t.toNat) with htailed
  refine ⟨padFinal tailed _ _, ?_, fun p h => ?_, fun j hj => ?_,
    read_padFinal_terminator tailed _ hb,
    fun h55 => ⟨fun p h1 h2 => read_padFinal_zero tailed _ hb h1 (by omega) fun _ => h2,
      fun j hj => read_padFinal_length tailed _ hb h55 hj⟩,
    fun h56 p h1 h2 => read_padFinal_zero tailed _ hb h1 h2 (by omega)⟩
  · rw [← padNext_bits]
    exact execFinal_accepted he hp hb
  · rw [read_padFinal_outside tailed _ hb (by omega), htailed,
      read_writeLanes_other _ _ _ ht (by omega)]
  · rw [read_padFinal_outside tailed _ hb (by omega), htailed, read_writeLanes _ _ _ ht hj]

/-! ### NOP and INIT -/

/-- Settles O20: NOP is outside the gate. -/
theorem nopHasNoEffect : Obligations.NopHasNoEffect := by
  unfold Obligations.NopHasNoEffect
  exact ⟨decode_encode .nop rfl, fun s => rfl⟩

/-- Settles O21: no cause of irq is left, and the phase is not DONE. -/
theorem initOpensSession : Obligations.InitOpensSession := by
  unfold Obligations.InitOpensSession
  refine ⟨decode_encode .init rfl, fun s => ⟨Memory.zeros, _, rfl, rfl, Memory.read_zeros, ?_,
    digestWord_of_not_done nofun⟩⟩
  rw [Bool.eq_false_iff, Ne, irq_eq_true_iff]
  rintro ⟨-, hdone | herr⟩
  · cases hdone
  · cases herr

/-- Settles O56: the state INIT leaves is the session's start. -/
theorem initStartsEmptySession : Obligations.InitStartsEmptySession := by
  unfold Obligations.InitStartsEmptySession
  exact fun s => ⟨_, rfl, Session.ofInit rfl⟩

/-! ### WR_CMD -/

/-- Settles O18: a word that does not decode, and the command of one that does. -/
theorem cmdWriteRunsCommand : Obligations.CmdWriteRunsCommand := by
  unfold Obligations.CmdWriteRunsCommand
  refine ⟨fun v => decode_encode (.wrCmd v) rfl, fun w s hd => ?_, fun w i s hd => ?_⟩
  · have hnone : ¬ ∃ i, decode (.cmd w) = .ok i := by
      rintro ⟨i, hi⟩
      cases hd.symm.trans hi
    exact execWrCmd_illegal (decodeCmd_eq_none hnone) s
  · obtain ⟨c, hc, rfl⟩ := decodeCmd_of_decode hd
    exact execWrCmd_legal hc s

/-- The word of a command runs it (R143). -/
theorem execWrCmd_word (c : Command) (s : State) : exec (.wrCmd c.word) s = exec c.instr s :=
  execWrCmd_legal (decodeCmd_word c) s

/-- Settles O19, command by command. -/
theorem cmdWriteCompletes : Obligations.CmdWriteCompletes := by
  unfold Obligations.CmdWriteCompletes
  refine fun s => ⟨execWrCmd_word .nop s, ⟨_, execWrCmd_word .init s, rfl, rfl⟩,
    fun he hp hb => ?_, fun t he hp hb => ?_⟩
  · exact ⟨s.pushed, (execWrCmd_word .push s).trans (execPush_accepted he hp hb), pushed_len s⟩
  · exact ⟨s.finalised t, (execWrCmd_word (.final t) s).trans (execFinal_accepted he hp (by omega)),
      rfl, rfl⟩

end Sys2Proof.Machine
end

section
/-! The digest of a session that has reached DONE (R131, R250, R251). -/

namespace Sys2Proof.Machine

/-- Byte 4k + j of the digest is byte j of Hk (R250). -/
theorem digest_getD (s : State) (k : BitVec 2) {j : Nat} (hj : j < 4) :
    s.digest.getD (4 * k.toNat + j) 0x00#8 = (s.chain k).extractLsb' (8 * j) 8 := by
  have hk : k = 0#2 ∨ k = 1#2 ∨ k = 2#2 ∨ k = 3#2 := by revert k; decide
  rcases hk with rfl | rfl | rfl | rfl <;> interval_cases j <;> rfl

/-- LEN of a session counts the bits of its message modulo 2^64 (R171). -/
theorem Session.len_toNat {s : State} {m : List Byte} (h : Session s m) :
    s.len.toNat = 8 * m.length % 2 ^ 64 := by
  rw [h.1, BitVec.toNat_ofNat]

/-- In DONE the digest of the engine is that of the session's message (R175, R250). -/
theorem Session.digest_of_done {s : State} {m : List Byte} (h : Session s m) (hp : s.phase = .done) :
    s.digest = md5 m := by
  obtain ⟨-, hchain⟩ := h
  rw [hp] at hchain
  rw [State.digest, hchain, md5]

/-- Settles O59: in DONE DIGESTk shows Hk, whose bytes are those of the message's digest. -/
theorem doneSessionReadsDigest : Obligations.DoneSessionReadsDigest := by
  unfold Obligations.DoneSessionReadsDigest
  intro s m h hp
  refine ⟨h.len_toNat, fun k => ⟨s.chain k, ?_, fun j hj => ?_⟩⟩
  · rw [exec_rdDigest, digestWord_of_done hp]
  · rw [← h.digest_of_done hp, digest_getD s k hj]

end Sys2Proof.Machine
end

section
/-! The padded message (R170), and the run from an accepted FINAL to the digest: one or two blocks of 65
engine steps, along which the session stays that of the whole message (R172, R175, R218, R250). -/

namespace Sys2Proof.Machine

/-- Settles O55, by the byte of each position: the length field is the last 8 of them. -/
theorem paddedMessageShape : Obligations.PaddedMessageShape := by
  unfold Obligations.PaddedMessageShape
  intro m
  have hlen := padMessage_length m
  refine ⟨hlen, fun p hp => ?_, ?_, fun p h1 h2 => ?_, fun j hj => ?_⟩
  · rw [padMessage_getD, if_pos hp]
  · rw [padMessage_getD, if_neg (Nat.lt_irrefl _), if_pos rfl]
  · rw [padMessage_getD, if_neg (by omega), if_neg (by omega), if_pos h2]
  · rw [padMessage_getD, if_neg (by omega), if_neg (by omega), if_neg (by omega),
      Nat.add_sub_cancel_left, le64_getD _ hj]

/-! ### Steps with no turn left (log 1) -/

/-- Outside RUN the engine has no step: a silent step changes nothing (R217). -/
theorem step_silent_of_not_run {s : State} (ht : s.turns = []) (hp : s.phase ≠ .run) :
    step s = .next s :=
  step_of_idle (by rw [fetch, ht]; exact if_neg hp)

/-- A silent step in RUN is the micro-operation that SEL selects (R217). -/
theorem step_silent_of_run {s t : State} (ht : s.turns = []) (hp : s.phase = .run)
    (hs : step s = .next t) : ∃ i, decodeSel s.sel = some i ∧ exec i s = .next t := by
  cases hd : decodeSel s.sel with
  | some i => exact ⟨i, rfl, step_sel hp ht hd ▸ hs⟩
  | none =>
    rw [step_of_fault (by rw [fetch, ht]; exact fetchEngine_of_no_sel hp hd)] at hs
    cases hs

/-- A silent step stays silent and in the session. -/
theorem Session.step_silent {s t : State} {m : List Byte} (h : Session s m) (ht : s.turns = [])
    (hs : step s = .next t) : Session t m ∧ t.turns = [] := by
  by_cases hp : s.phase = .run
  · obtain ⟨i, hd, hx⟩ := step_silent_of_run ht hp hs
    obtain ⟨-, -, -, -, -, hturns, -⟩ := engine_frame hd hx
    exact ⟨session_engine h hp hd rfl rfl hx, hturns.trans ht⟩
  · rw [step_silent_of_not_run ht hp] at hs
    cases hs
    exact ⟨h, ht⟩

/-- Any number of silent steps stays in the session. -/
theorem Session.steps_silent {n : Nat} {s t : State} {m : List Byte} (h : Session s m)
    (ht : s.turns = []) (hs : steps n s = .next t) : Session t m := by
  induction n generalizing s with
  | zero => cases hs; exact h
  | succ n ih =>
    rw [steps] at hs
    cases hstep : step s with
    | next u =>
      rw [hstep] at hs
      obtain ⟨hu, hturns⟩ := h.step_silent ht hstep
      exact ih hu hturns hs
    | fault f => rw [hstep] at hs; cases hs
    | refused r => rw [hstep] at hs; cases hs

/-! ### The last blocks -/

/-- The last block ends in DONE (R216, R218). -/
theorem steps_last_block {s : State} (hp : s.phase = .run) (ht : s.turns = []) (h0 : s.rnd = 0#7)
    (hn : s.nxt = 2#2) : ∃ t, steps 65 s = .next t ∧ t.phase = .done := by
  have hd : decodeSel (s.nxt ++ 64#7) = some .accumLast := by rw [hn, decodeSel_accum]; rfl
  rw [steps_block hp ht h0 (by simp [hn]) hd]
  obtain ⟨t, hx, hdone, -⟩ := accumLast_next s (rounds (Memory.word s.mbuf) 64 s.work) 64#7
  exact ⟨t, hx, hdone⟩

/-- The block before the padding block ends where the padding block starts (R215, R218). -/
theorem steps_pad2_block {s : State} (hp : s.phase = .run) (ht : s.turns = []) (h0 : s.rnd = 0#7)
    (hn : s.nxt = 1#2) :
    ∃ t, steps 65 s = .next t ∧ t.phase = .run ∧ t.turns = [] ∧ t.rnd = 0#7 ∧ t.nxt = 2#2 := by
  have hd : decodeSel (s.nxt ++ 64#7) = some .accumPad2 := by rw [hn, decodeSel_accum]; rfl
  rw [steps_block hp ht h0 (by simp [hn]) hd]
  obtain ⟨t, hx, hphase, hnxt, hrnd, -, -, hturns⟩ :=
    accumPad2_next s (rounds (Memory.word s.mbuf) 64 s.work) 64#7
  exact ⟨t, hx, hphase.trans hp, hturns.trans ht, hrnd, hnxt⟩

/-- A block started by PadFinal with `b` message bytes in it reaches DONE in 65 steps when the length
fits in it, and in 130 otherwise (R172, R218). -/
theorem steps_padded_blocks {s : State} {b : Nat} (hp : s.phase = .run) (ht : s.turns = [])
    (h0 : s.rnd = 0#7) (hn : s.nxt = (padNext b).bits) :
    ∃ t, steps (65 * if b ≤ 55 then 1 else 2) s = .next t ∧ t.phase = .done := by
  rw [padNext_bits] at hn
  split_ifs at hn ⊢
  · exact steps_last_block hp ht h0 hn
  · obtain ⟨u, hu, hphase, hturns, hrnd, hnxt⟩ := steps_pad2_block hp ht h0 hn
    obtain ⟨t, hlast, hdone⟩ := steps_last_block hphase hturns hrnd hnxt
    exact ⟨t, steps_twice 65 hu hlast, hdone⟩

/-- The blocks that the padded message has beyond the whole blocks of a message which its tail does not
fill to a block (R170). -/
theorem padded_blocks_left (m d : List Byte) (h : m.length % 64 + d.length < 64) :
    (padMessage (m ++ d)).length / 64 - m.length / 64 =
      if m.length % 64 + d.length ≤ 55 then 1 else 2 := by
  rw [padMessage_length, List.length_append]
  split_ifs <;> omega

/-- In ABSORB the message is whole words, and BCNT counts its bytes in the current block (R71). -/
theorem Session.counts_of_absorb {s : State} {m : List Byte} (h : Session s m)
    (hp : s.phase = .absorb) : m.length % 4 = 0 ∧ s.bcnt.toNat = m.length % 64 := by
  obtain ⟨-, hphase⟩ := h
  rw [hp] at hphase
  obtain ⟨hwords, hcount, -⟩ := hphase
  exact ⟨hwords, hcount⟩

/-- Settles O58: FINAL starts the session of the whole message at its last blocks, and their steps stay
in that session up to DONE, where the digest is the message's. -/
theorem finalYieldsMessageDigest : Obligations.FinalYieldsMessageDigest := by
  unfold Obligations.FinalYieldsMessageDigest
  intro s m t h hp he ht
  have hd : (dataLanes s.data t.toNat).length = t.toNat := dataLanes_length _ (by omega)
  obtain ⟨hwords, hb⟩ := h.counts_of_absorb hp
  have hroom : s.bcnt.toNat + t.toNat < 64 := by omega
  obtain ⟨v, hsteps, hdone⟩ := steps_padded_blocks (s := s.finalised t) rfl ht rfl rfl
  have hv := (session_final h t hp hroom).steps_silent ht hsteps
  refine ⟨s.finalised t, v, execFinal_accepted he hp hroom, ?_, hdone, hv.digest_of_done hdone⟩
  rwa [padded_blocks_left m _ (by omega), hd, ← hb]

end Sys2Proof.Machine
end

section
/-! The datapath of the state mixer (R200 to R207): the barrel shifter, the function mux, the schedule and
the ROMs. -/

namespace Sys2Proof.Machine

/-! ### The barrel shifter -/

theorem rotl32_zero (x : Word) : rotl32 x 0#5 = x := rfl

/-- The two shifts that a rotation by 1 to 31 joins (R203). -/
theorem rotl32_of_pos (x : Word) {n : BitVec 5} (hn : 1 ≤ n.toNat) :
    rotl32 x n = x <<< n.toNat ||| x >>> (32 - n.toNat) :=
  if_neg (by rintro rfl; simp at hn)

/-- The barrel shifter is the library's rotation. -/
theorem rotl32_eq_rotateLeft (x : Word) (n : BitVec 5) : rotl32 x n = x.rotateLeft n.toNat := by
  have hn : n.toNat % 32 = n.toNat := Nat.mod_eq_of_lt n.isLt
  rw [BitVec.rotateLeft, hn, BitVec.rotateLeftAux]
  obtain rfl | hpos : n = 0#5 ∨ 1 ≤ n.toNat := by bv_omega
  · simp [rotl32_zero, BitVec.ushiftRight_eq_zero]
  · exact rotl32_of_pos x hpos

theorem shiftLeft_eq_ofNat_mul {w : Nat} (x : BitVec w) (k : Nat) :
    x <<< k = BitVec.ofNat w (x.toNat * 2 ^ k) := by
  rw [← Nat.shiftLeft_eq]
  rfl

theorem shiftRight_eq_ofNat_div {w : Nat} (x : BitVec w) (k : Nat) :
    x >>> k = BitVec.ofNat w (x.toNat / 2 ^ k) := by
  have hlt : x.toNat / 2 ^ k < 2 ^ w := (Nat.div_le_self _ _).trans_lt x.isLt
  apply BitVec.eq_of_toNat_eq
  rw [BitVec.toNat_ushiftRight, Nat.shiftRight_eq_div_pow, BitVec.toNat_ofNat, Nat.mod_eq_of_lt hlt]

/-- Bit k of a rotation by n is bit k - n modulo 32 (R203). -/
theorem rotl32_getLsbD (x : Word) (n : BitVec 5) {k : Nat} (hk : k < 32) :
    (rotl32 x n).getLsbD k = x.getLsbD ((k + 32 - n.toNat) % 32) := by
  have hn : n.toNat % 32 = n.toNat := Nat.mod_eq_of_lt n.isLt
  rw [rotl32_eq_rotateLeft, BitVec.getLsbD_rotateLeft, hn]
  by_cases hwrap : k < n.toNat
  · have hbit : (k + 32 - n.toNat) % 32 = 32 - n.toNat + k := by omega
    simp [hwrap, hbit]
  · have hbit : (k + 32 - n.toNat) % 32 = k - n.toNat := by omega
    simp [hwrap, hbit, hk]

/-- Settles O27: the shifts as a product and a quotient, and the bits of the rotation. -/
theorem barrelShifterRotates : Obligations.BarrelShifterRotates := by
  unfold Obligations.BarrelShifterRotates
  refine fun x n => ⟨rotl32_zero x, fun hn => ?_, fun k hk => rotl32_getLsbD x n hk⟩
  rw [rotl32_of_pos x hn, shiftLeft_eq_ofNat_mul, shiftRight_eq_ofNat_div]

/-! ### The function mux -/

/-- A bitwise multiplexer: the bit of `x` where `sel` is set, of `y` elsewhere. -/
theorem getLsbD_mux (sel x y : Word) {k : Nat} (hk : k < 32) :
    ((sel &&& x) ||| (~~~sel &&& y)).getLsbD k = if sel.getLsbD k then x.getLsbD k else y.getLsbD k := by
  simp only [BitVec.getLsbD_or, BitVec.getLsbD_and, BitVec.getLsbD_not, hk, decide_true, Bool.true_and]
  cases sel.getLsbD k <;> simp

/-- Settles O28: F and G are multiplexers, by b and by d. -/
theorem functionMuxTruthTable : Obligations.FunctionMuxTruthTable := by
  unfold Obligations.FunctionMuxTruthTable
  refine fun b c d k hk => ⟨getLsbD_mux b c d hk, getLsbD_mux d b c hk, ?_, ?_⟩
  · simp [fmux]
  · simp [fmux, hk]

/-! ### The schedule and the ROMs -/

/-- No two rounds of a quarter read the same message word (R202). -/
theorem gIndex_injective (q : BitVec 2) : Function.Injective fun j : BitVec 4 => gIndex (q ++ j) := by
  have h : ∀ (q : BitVec 2) (j j' : BitVec 4), gIndex (q ++ j) = gIndex (q ++ j') → j = j' := by decide
  exact h q

/-- Settles O29: the table by evaluation; a quarter's schedule is a permutation of the 16 words. -/
theorem scheduleTable : Obligations.ScheduleTable := by
  unfold Obligations.ScheduleTable
  exact ⟨by decide, by decide, by decide, by decide,
    fun q => (Finite.injective_iff_bijective.1 (gIndex_injective q)).existsUnique⟩

/-- Settles O60, table by table. -/
theorem romContents : Obligations.RomContents := by
  unfold Obligations.RomContents
  exact ⟨by decide, by decide, by decide, by decide, by decide, by decide, by decide, by decide,
    rfl, rfl, rfl, rfl⟩

end Sys2Proof.Machine
end

section
/-! The micro-operations (R210 to R216): what a round's selector decodes to and leaves, quarter by quarter,
and the accumulations. -/

namespace Sys2Proof.Machine

/-! ### Rounds -/

/-- The selector of a round from its fields (R106). -/
theorem decode_roundSelector (n q : BitVec 2) (j : BitVec 4) :
    decode (.sel (n ++ (0b0#1 ++ q) ++ j)) = .ok (decodeRound n q j) := by
  have hsel : (n ++ (0b0#1 ++ q) ++ j : BitVec 9) = n ++ (0b0#1 ++ q ++ j) := by revert n q j; decide
  rw [hsel]
  exact decode_sel_some (decodeSel_round n q j)

theorem roundIndex_eq_ofNat (q : BitVec 2) (j : BitVec 4) :
    roundIndex q j = BitVec.ofNat 6 (16 * q.toNat + j.toNat) := by
  revert q j; decide

theorem quarter_roundIndex (q : BitVec 2) (j : BitVec 4) : quarter (roundIndex q j) = q := by
  revert q j; decide

theorem sAmount_roundIndex (q : BitVec 2) (j : BitVec 4) :
    sAmount (roundIndex q j) = (sQuarter q).getD (j.toNat % 4) 0#5 := by
  revert q j; decide

theorem nextRound_roundIndex (q : BitVec 2) (j : BitVec 4) :
    (roundIndex q j).setWidth 7 + 1#7 = BitVec.ofNat 7 (16 * q.toNat + j.toNat + 1) := by
  revert q j; decide

/-- The whole next state of a round whose selector is legal, for every quarter, with `g` the index of the
message word it reads (R204, R106, R107). -/
theorem exec_round_of_quarter {n : BitVec 2} (hn : n ≠ 3#2) (q : BitVec 2) {j g : BitVec 4}
    (hg : gIndex (roundIndex q j) = g) (s : State) :
    exec (decodeRound n q j) s = .next
      { s with
        a := s.d, c := s.b, d := s.c
        b := s.b + rotl32
          (fmux q s.b s.c s.d + s.a + kWord (BitVec.ofNat 6 (16 * q.toNat + j.toNat)) +
            Memory.word s.mbuf g)
          ((sQuarter q).getD (j.toNat % 4) 0#5)
        rnd := BitVec.ofNat 7 (16 * q.toNat + j.toNat + 1) } := by
  rw [exec_decodeRound, selectedRound_legal hn, ← roundIndex_eq_ofNat, ← nextRound_roundIndex,
    ← sAmount_roundIndex, ← hg]
  simp only [State.round, roundQuad, quarter_roundIndex]
  rfl

/-! ### The schedule of each quarter (R201) -/

theorem gIndex_quarter0 (j : BitVec 4) : gIndex (roundIndex 0#2 j) = j := by
  revert j; decide

theorem gIndex_quarter1 (j : BitVec 4) :
    gIndex (roundIndex 1#2 j) = BitVec.ofNat 4 ((5 * (16 + j.toNat) + 1) % 16) := by
  revert j; decide

theorem gIndex_quarter2 (j : BitVec 4) :
    gIndex (roundIndex 2#2 j) = BitVec.ofNat 4 ((3 * (32 + j.toNat) + 5) % 16) := by
  revert j; decide

theorem gIndex_quarter3 (j : BitVec 4) :
    gIndex (roundIndex 3#2 j) = BitVec.ofNat 4 ((7 * (48 + j.toNat)) % 16) := by
  revert j; decide

/-- Settles O30: the round of quarter 0, whose schedule is the identity. -/
theorem roundFStep : Obligations.RoundFStep := by
  unfold Obligations.RoundFStep
  refine fun n j s => ⟨decode_roundSelector n 0#2 j, fun hn => ?_⟩
  have hx := exec_round_of_quarter hn 0#2 (gIndex_quarter0 j) s
  rw [BitVec.toNat_zero, Nat.mul_zero, Nat.zero_add] at hx
  exact hx

/-- Settles O31: the round of quarter 1. -/
theorem roundGStep : Obligations.RoundGStep := by
  unfold Obligations.RoundGStep
  exact fun n j s => ⟨decode_roundSelector n 1#2 j,
    fun hn => exec_round_of_quarter hn 1#2 (gIndex_quarter1 j) s⟩

/-- Settles O32: the round of quarter 2. -/
theorem roundHStep : Obligations.RoundHStep := by
  unfold Obligations.RoundHStep
  exact fun n j s => ⟨decode_roundSelector n 2#2 j,
    fun hn => exec_round_of_quarter hn 2#2 (gIndex_quarter2 j) s⟩

/-- Settles O33: the round of quarter 3. -/
theorem roundIStep : Obligations.RoundIStep := by
  unfold Obligations.RoundIStep
  exact fun n j s => ⟨decode_roundSelector n 3#2 j,
    fun hn => exec_round_of_quarter hn 3#2 (gIndex_quarter3 j) s⟩

/-! ### Accumulations -/

/-- Settles O34. -/
theorem accumContReturnsToAbsorb : Obligations.AccumContReturnsToAbsorb := by
  unfold Obligations.AccumContReturnsToAbsorb
  exact ⟨decode_encode .accumCont rfl, fun s => rfl⟩

/-- Settles O36. -/
theorem accumLastReachesDone : Obligations.AccumLastReachesDone := by
  unfold Obligations.AccumLastReachesDone
  exact ⟨decode_encode .accumLast rfl, fun s => rfl⟩

section
variable (m : Memory) (len : BitVec 64)

theorem read_padBlock_zero {p : Nat} (hp : p ≤ 55) : Memory.read (padBlock m len) p = 0x00#8 := by
  rw [read_padBlock, if_pos (by omega)]

/-- The length field of the padding block (R74, R173). -/
theorem read_padBlock_length {j : Nat} (hj : j < 8) :
    Memory.read (padBlock m len) (56 + j) = len.extractLsb' (8 * j) 8 := by
  rw [read_padBlock, if_neg (by omega), if_pos (by omega), Nat.add_sub_cancel_left, le64_getD len hj]

theorem read_padBlock_outside {p : Nat} (hp : 64 ≤ p) :
    Memory.read (padBlock m len) p = Memory.read m p := by
  rw [read_padBlock, if_neg (by omega), if_neg (by omega)]

end

/-- Settles O35: the block is PadBlock's, byte by byte. -/
theorem accumPad2BuildsPaddingBlock : Obligations.AccumPad2BuildsPaddingBlock := by
  unfold Obligations.AccumPad2BuildsPaddingBlock
  exact ⟨decode_encode .accumPad2 rfl, fun s => ⟨padBlock s.mbuf s.len, rfl,
    fun p => read_padBlock_zero s.mbuf s.len, fun j => read_padBlock_length s.mbuf s.len,
    fun p => read_padBlock_outside s.mbuf s.len⟩⟩

end Sys2Proof.Machine
end

section
/-! The engine and the host in RUN: the engine's step is the one that SEL selects, a block takes 65 of them
(R217, R218), and no bus operation but INIT touches a running compression. -/

namespace Sys2Proof.Machine

/-! ### The engine's step -/

theorem fetchEngine_of_not_run {s : State} (hp : s.phase ≠ .run) : fetchEngine s = .idle s :=
  if_neg hp

/-- Settles O39: an engine turn and a step with no turn left fetch the same. -/
theorem engineStepsOnlyInRun : Obligations.EngineStepsOnlyInRun := by
  unfold Obligations.EngineStepsOnlyInRun
  refine fun s ts => ⟨fun hp => ⟨step_of_idle ?_, step_silent_of_not_run rfl hp⟩,
    fun i hp hd => ⟨step_of_instr ?_,
      step_sel (s := { s with turns := [] }) hp rfl (decodeSel_of_decode hd)⟩⟩
  · exact (fetch_of_engine rfl).trans (fetchEngine_of_not_run hp)
  · exact (fetch_of_engine rfl).trans (fetchEngine_of_sel hp (decodeSel_of_decode hd))

/-! ### Whole blocks -/

section
variable {s : State} (hp : s.phase = .run) (h0 : s.rnd = 0#7) (ht : s.turns = [])
  (hw : s.work = s.chainQuad)
include hw

/-- Adding what 64 rounds leave of a block's start is the compression of the block (R208, R209). -/
theorem add_rounds_of_start :
    s.chainQuad.add (rounds (Memory.word s.mbuf) 64 s.work) =
      compress (Memory.word s.mbuf) s.chainQuad := by
  rw [hw, compress]

include hp h0 ht

theorem steps_block_cont (hn : s.nxt = 0#2) :
    ∃ t, steps 65 s = .next t ∧ t.phase = .absorb ∧
      t.chainQuad = compress (Memory.word s.mbuf) s.chainQuad := by
  have hd : decodeSel (s.nxt ++ 64#7) = some .accumCont := by rw [hn, decodeSel_accum]; rfl
  rw [steps_block hp ht h0 (by simp [hn]) hd, ← add_rounds_of_start hw]
  exact accumCont_next s _ 64#7

theorem steps_block_last (hn : s.nxt = 2#2) :
    ∃ t, steps 65 s = .next t ∧ t.phase = .done ∧
      t.chainQuad = compress (Memory.word s.mbuf) s.chainQuad := by
  have hd : decodeSel (s.nxt ++ 64#7) = some .accumLast := by rw [hn, decodeSel_accum]; rfl
  rw [steps_block hp ht h0 (by simp [hn]) hd, ← add_rounds_of_start hw]
  exact accumLast_next s _ 64#7

/-- The block before the padding block ends at the start of the padding block. -/
theorem steps_block_pad2 (hn : s.nxt = 1#2) :
    ∃ t, steps 65 s = .next t ∧ t.phase = s.phase ∧ t.nxt = 2#2 ∧ t.rnd = 0#7 ∧
      t.chainQuad = compress (Memory.word s.mbuf) s.chainQuad ∧ t.work = t.chainQuad ∧
      t.turns = s.turns := by
  have hd : decodeSel (s.nxt ++ 64#7) = some .accumPad2 := by rw [hn, decodeSel_accum]; rfl
  rw [steps_block hp ht h0 (by simp [hn]) hd, ← add_rounds_of_start hw]
  exact accumPad2_next s _ 64#7

end

/-- Settles O38: the rounds, and the accumulation that NEXT names; after PAD2 the padding block is a last
block. -/
theorem blockTakesSixtyFiveSteps : Obligations.BlockTakesSixtyFiveSteps := by
  unfold Obligations.BlockTakesSixtyFiveSteps
  refine fun s hp h0 ht => ⟨fun hn => steps_rounds hp ht h0 hn 64 (Nat.le_refl 64),
    fun hn hw => steps_block_cont hp h0 ht hw hn, fun hn hw => steps_block_last hp h0 ht hw hn,
    fun hn hw => ?_⟩
  obtain ⟨t, hsteps, hphase, hnxt, hrnd, hchain, hwork, hturns⟩ := steps_block_pad2 hp h0 ht hw hn
  obtain ⟨u, hlast, hdone, hdigest⟩ :=
    steps_block_last (hphase.trans hp) hrnd (hturns.trans ht) hwork hnxt
  exact ⟨t, u, hsteps, hphase.trans hp, hnxt, hrnd, hchain, hwork, steps_twice 65 hsteps hlast, hdone,
    hdigest⟩

/-! ### The host in RUN -/

/-- `t` holds the running compression of `s`: what R217 keeps from the host, and the turns to come. -/
structure SameCompression (s t : State) : Prop where
  turns : t.turns = s.turns
  work : t.work = s.work
  chain : t.chainQuad = s.chainQuad
  rnd : t.rnd = s.rnd
  nxt : t.nxt = s.nxt
  mbuf : t.mbuf = s.mbuf
  phase : t.phase = s.phase
  bcnt : t.bcnt = s.bcnt
  len : t.len = s.len

theorem SameCompression.refl (s : State) : SameCompression s s :=
  ⟨rfl, rfl, rfl, rfl, rfl, rfl, rfl, rfl, rfl⟩

/-- An error writes ERR and ERRCODE only (R302). -/
theorem SameCompression.raiseCmdError (s : State) (e : CmdError) :
    SameCompression s (s.raiseCmdError e) := by
  constructor <;> simp

/-- In RUN the gate lets no command through (R146). -/
theorem gated_keeps_compression {i : Instr} {s : State}
    {k : State → Host.Outcome State Fault Refusal} (hi : exec i s = s.gated k) (hp : s.phase = .run) :
    ∃ t, exec i s = .next t ∧ SameCompression s t := by
  rw [hi]
  cases he : s.err with
  | true => exact ⟨s, gated_of_err he, .refl s⟩
  | false => exact ⟨_, gated_of_run he hp, .raiseCmdError s .busy⟩

/-- In RUN every command but INIT completes and keeps the compression. -/
theorem command_keeps_compression {s : State} (hp : s.phase = .run) :
    ∀ c : Command, c ≠ .init → ∃ t, exec c.instr s = .next t ∧ SameCompression s t
  | .nop, _ => ⟨s, rfl, .refl s⟩
  | .init, hc => absurd rfl hc
  | .push, _ => gated_keeps_compression (exec_push s) hp
  | .final t, _ => gated_keeps_compression (exec_final t s) hp

/-- In RUN a write to CMD that starts no INIT completes and keeps the compression (R143). -/
theorem wrCmd_keeps_compression {s : State} (hp : s.phase = .run) {w : Word}
    (hc : decodeCmd w ≠ some .init) : ∃ t, exec (.wrCmd w) s = .next t ∧ SameCompression s t := by
  cases hd : decodeCmd w with
  | none => exact ⟨_, execWrCmd_illegal hd s, .raiseCmdError s .illegalCmd⟩
  | some c =>
    rw [execWrCmd_legal hd]
    exact command_keeps_compression hp c fun h => hc (h ▸ hd)

/-- In RUN every bus operation that starts no INIT completes and keeps the compression: a read, a write
without effect, a write of IE or of DATA, or a write to CMD. -/
theorem bus_keeps_compression {s : State} (hp : s.phase = .run) {req : BitVec 5} {w : Word}
    (hc : commandOf (decodeBus req w) ≠ some .init) :
    ∃ t, exec (decodeBus req w) s = .next t ∧ SameCompression s t := by
  obtain ⟨read, hx⟩ | hx | hx | hx | hi := decodeBus_cases req w
  · exact ⟨_, hx s, rfl, rfl, rfl, rfl, rfl, rfl, rfl, rfl, rfl⟩
  · exact ⟨s, hx s, .refl s⟩
  · exact ⟨_, hx s, rfl, rfl, rfl, rfl, rfl, rfl, rfl, rfl, rfl⟩
  · exact ⟨_, hx s, rfl, rfl, rfl, rfl, rfl, rfl, rfl, rfl, rfl⟩
  · rw [hi] at hc ⊢
    exact wrCmd_keeps_compression hp hc

/-- Settles O42: taking the turn and emptying the answer touch nothing of the compression either. -/
theorem hostCannotDisturbRun : Obligations.HostCannotDisturbRun := by
  unfold Obligations.HostCannotDisturbRun
  intro s req w ts hp ht hc
  obtain ⟨t, hx, h⟩ := bus_keeps_compression (s := { s with turns := ts, rdata := none }) hp hc
  exact ⟨t, (step_of_bus ht).trans hx, h.turns, h.work, h.chain, h.rnd, h.nxt, h.mbuf, h.phase.trans hp,
    h.bcnt, h.len⟩

end Sys2Proof.Machine
end

section
/-! The serializer (R250 to R253): the bytes of the digest, and the steps that keep it in DONE. -/

namespace Sys2Proof.Machine

/-! ### The bytes of the digest -/

/-- Hk is entry k of the state words in their order (R31). -/
theorem chain_eq_getD (s : State) (k : BitVec 2) :
    s.chain k = [s.h0, s.h1, s.h2, s.h3].getD k.toNat 0#32 := by
  obtain rfl | rfl | rfl | rfl : k = 0#2 ∨ k = 1#2 ∨ k = 2#2 ∨ k = 3#2 := by revert k; decide
  all_goals rfl

/-- Byte j of a word as a quotient, least significant byte first. -/
theorem extractLsb'_byte_eq_ofNat (v : Word) (j : Nat) :
    v.extractLsb' (8 * j) 8 = BitVec.ofNat 8 (v.toNat / 2 ^ (8 * j)) := by
  rw [BitVec.extractLsb', Nat.shiftRight_eq_div_pow]

/-- Settles O43: a byte of the digest is a byte of Hk, which DIGESTk shows in DONE. -/
theorem digestIsLittleEndian : Obligations.DigestIsLittleEndian := by
  unfold Obligations.DigestIsLittleEndian
  refine fun s k j hj => ⟨rfl, ?_, fun hp => ⟨s.chain k, ?_, ?_⟩⟩
  · rw [digest_getD s k hj, extractLsb'_byte_eq_ofNat, chain_eq_getD]
  · rw [exec_rdDigest, digestWord_of_done hp]
  · rw [digest_getD s k hj]

/-! ### What keeps the digest -/

/-- Outside ABSORB a command other than INIT can at most raise an error (R146, R147). -/
theorem SameCompression.of_command {s t : State} {c : Command} (hp : s.phase ≠ .absorb)
    (hc : c ≠ .init) (hx : exec c.instr s = .next t) : SameCompression s t := by
  obtain rfl | ⟨hi, -⟩ | ⟨-, e, rfl⟩ | ⟨-, ha, -⟩ | ⟨-, ha, -⟩ := command_next c hx
  · exact .refl _
  · exact absurd hi hc
  · exact .raiseCmdError s e
  · exact absurd ha hp
  · exact absurd ha hp

/-- Outside ABSORB a write to CMD that starts no INIT, legal or not, can at most raise an error (R143). -/
theorem SameCompression.of_wrCmd {s t : State} {w : Word} (hp : s.phase ≠ .absorb)
    (hc : decodeCmd w ≠ some .init) (hx : exec (.wrCmd w) s = .next t) : SameCompression s t := by
  cases hd : decodeCmd w with
  | none =>
    rw [execWrCmd_illegal hd] at hx
    cases hx
    exact .raiseCmdError s .illegalCmd
  | some c =>
    rw [execWrCmd_legal hd] at hx
    exact .of_command hp (fun h => hc (h ▸ hd)) hx

/-- Outside ABSORB a bus operation that starts no INIT writes at most the answer, IE, DATA or the error
state. -/
theorem SameCompression.of_bus {s t : State} {req : BitVec 5} {w : Word} (hp : s.phase ≠ .absorb)
    (hc : commandOf (decodeBus req w) ≠ some .init) (hx : exec (decodeBus req w) s = .next t) :
    SameCompression s t := by
  obtain ⟨v, rfl⟩ | rfl | ⟨x, rfl⟩ | ⟨v, rfl⟩ | hi := bus_next req w hx
  · exact ⟨rfl, rfl, rfl, rfl, rfl, rfl, rfl, rfl, rfl⟩
  · exact .refl _
  · exact ⟨rfl, rfl, rfl, rfl, rfl, rfl, rfl, rfl, rfl⟩
  · exact ⟨rfl, rfl, rfl, rfl, rfl, rfl, rfl, rfl, rfl⟩
  · rw [hi] at hc hx
    exact .of_wrCmd hp hc hx

/-- The four state words of a compression kept. -/
theorem SameCompression.stateWords {s t : State} (h : SameCompression s t) :
    t.h0 = s.h0 ∧ t.h1 = s.h1 ∧ t.h2 = s.h2 ∧ t.h3 = s.h3 := by
  simpa [State.chainQuad] using h.chain

/-- Settles O53, by what a step can be: in DONE the engine has no instruction, a bus operation keeps H
and PHASE, and an idle turn changes neither. -/
theorem digestStableInDone : Obligations.DigestStableInDone := by
  unfold Obligations.DigestStableInDone
  intro s t hp hstep hreset hinit
  obtain ⟨i, s1, hf, hx⟩ | hf | hf := step_next hstep
  · obtain ⟨ts, -, hrun, -⟩ | ⟨ts, req, w, rfl, rfl⟩ := fetch_instr hf
    · simp [hp] at hrun
    · have h := SameCompression.of_bus (by simp [hp]) (hinit _ _ hf) hx
      exact ⟨h.phase.trans hp, h.stateWords⟩
  · obtain ⟨ts, rfl, -⟩ := fetch_idle hf
    exact ⟨hp, rfl, rfl, rfl, rfl⟩
  · exact absurd hf (hreset t)

end Sys2Proof.Machine
end

section
/-! The exceptions of the engine (R300 to R311): the order in which a CMD write checks its errors, the lock
while ERR = 1, the faults that the invariant excludes, and irq. -/

namespace Sys2Proof.Machine

/-! ### The errors of one command -/

/-- PUSH and FINAL stand behind the gate (R146). -/
theorem exec_pushOrFinal_gated {i : Instr} (hi : i = .push ∨ ∃ n, i = .final n) (s : State) :
    ∃ k, exec i s = s.gated k := by
  obtain rfl | ⟨n, rfl⟩ := hi
  · exact ⟨_, exec_push s⟩
  · exact ⟨_, exec_final n s⟩

/-- Settles O24: the gate raises the errors before either command has an effect. -/
theorem busyAndSequenceErrors : Obligations.BusyAndSequenceErrors := by
  unfold Obligations.BusyAndSequenceErrors
  intro i s hi he
  obtain ⟨k, hk⟩ := exec_pushOrFinal_gated hi s
  obtain ⟨-, hrun, hclosed⟩ := exec_refused hk
  exact ⟨hrun he, hclosed he⟩

/-- An accepted PUSH writes neither ERR nor ERRCODE (R149). -/
theorem pushed_error (s : State) : s.pushed.err = s.err ∧ s.pushed.errcode = s.errcode := by
  unfold State.pushed
  split <;> exact ⟨rfl, rfl⟩

/-- An accepted PUSH moves BCNT four bytes on, also when it fills the block (R149). -/
theorem pushed_bcnt {s : State} (hb : s.bcnt.toNat ≤ 60) :
    s.pushed.bcnt.toNat = s.bcnt.toNat + 4 := by
  unfold State.pushed
  split
  · next hfull => exact hfull.symm
  · simp only [BitVec.toNat_add, BitVec.toNat_ofNat]
    omega

/-- An accepted FINAL leaves BCNT at 64 (R150). -/
theorem finalised_bcnt (s : State) (n : BitVec 2) : (s.finalised n).bcnt = 64#7 := rfl

/-- Where the gate accepts it and the block has room for a word, PUSH or FINAL raises no error and moves
BCNT on (R149, R150). -/
theorem exec_accepted {i : Instr} {s : State} (hi : i = .push ∨ ∃ n, i = .final n) (he : s.err = false)
    (hp : s.phase = .absorb) (hb : s.bcnt.toNat ≤ 60) :
    ∃ t, exec i s = .next t ∧ t.err = false ∧ t.errcode = s.errcode ∧
      s.bcnt.toNat < t.bcnt.toNat := by
  obtain rfl | ⟨n, rfl⟩ := hi
  · obtain ⟨herr, hcode⟩ := pushed_error s
    refine ⟨s.pushed, execPush_accepted he hp (by omega), herr.trans he, hcode, ?_⟩
    rw [pushed_bcnt hb]
    omega
  · refine ⟨s.finalised n, execFinal_accepted he hp (by omega), he, rfl, ?_⟩
    rw [finalised_bcnt, BitVec.toNat_ofNat]
    omega

/-- Settles O25: what the word decodes to comes first, then the gate in its own order. -/
theorem cmdErrorPriority : Obligations.CmdErrorPriority := by
  unfold Obligations.CmdErrorPriority
  obtain ⟨-, hillegal, hlegal⟩ := cmdWriteRunsCommand
  refine fun w s => ⟨hillegal w s, fun hd => ⟨s, hlegal w .nop s hd, rfl, rfl⟩,
    fun hd => ⟨_, hlegal w .init s hd, rfl, rfl⟩, fun hd => ?_⟩
  obtain ⟨i, hi, hdi⟩ : ∃ i, (i = .push ∨ ∃ n, i = .final n) ∧ decode (.cmd w) = .ok i := by
    obtain hd | ⟨n, hd⟩ := hd
    · exact ⟨.push, .inl rfl, hd⟩
    · exact ⟨.final n, .inr ⟨n, rfl⟩, hd⟩
  obtain ⟨k, hk⟩ := exec_pushOrFinal_gated hi s
  obtain ⟨hlocked, hrun, hclosed⟩ := exec_refused hk
  rw [hlegal w i s hdi]
  exact ⟨hlocked, hrun, hclosed, exec_accepted hi⟩

/-! ### The engine raises nothing -/

/-- Settles O41: the fetch does not change the state, and no micro-operation writes these registers. -/
theorem engineStepsRaiseNothing : Obligations.EngineStepsRaiseNothing := by
  unfold Obligations.EngineStepsRaiseNothing
  intro s s1 t i hf hx
  obtain ⟨rfl, -, hd⟩ := fetchEngine_instr hf
  exact engine_frame hd hx

/-! ### No fault under the invariant -/

/-- A gated command completes when its effect in ABSORB does (R146). -/
theorem gated_completes {i : Instr} {s : State} {k : State → Host.Outcome State Fault Refusal}
    (hi : exec i s = s.gated k) (hk : s.phase = .absorb → ∃ t, k s = .next t) :
    ∃ t, exec i s = .next t := by
  rw [hi]
  obtain ⟨-, hg⟩ | ⟨-, -, hg⟩ | ⟨-, -, hg⟩ | ⟨-, hp, hg⟩ := gated_cases s k <;> rw [hg]
  · exact ⟨_, rfl⟩
  · exact ⟨_, rfl⟩
  · exact ⟨_, rfl⟩
  · exact hk hp

/-- A command that stores at most four bytes completes: in ABSORB the block has room for them (R51). -/
theorem EngineInv.ifRoom_completes {s t : State} {n : Nat} (h : EngineInv s) (hn : n ≤ 4)
    (hp : s.phase = .absorb) : ∃ u, s.ifRoom n (.next t) = .next u := by
  have hb := (h.absorbCount hp).2
  exact ⟨t, ifRoom_pos (by omega)⟩

/-- Every command completes under the invariant (R147 to R150). -/
theorem EngineInv.command_completes {s : State} (h : EngineInv s) :
    ∀ c : Command, ∃ t, exec c.instr s = .next t
  | .nop => ⟨s, rfl⟩
  | .init => ⟨_, rfl⟩
  | .push => gated_completes (exec_push s) (h.ifRoom_completes (Nat.le_refl 4))
  | .final n => gated_completes (exec_final n s) (h.ifRoom_completes n.isLt)

/-- Every bus operation completes under the invariant: only an accepted command could fault (R132 to
R145). -/
theorem EngineInv.bus_completes {s : State} (h : EngineInv s) (req : BitVec 5) (w : Word) :
    ∃ t, exec (decodeBus req w) s = .next t := by
  obtain ⟨read, hx⟩ | hx | hx | hx | hi := decodeBus_cases req w
  · exact ⟨_, hx s⟩
  · exact ⟨_, hx s⟩
  · exact ⟨_, hx s⟩
  · exact ⟨_, hx s⟩
  · rw [hi]
    cases hd : decodeCmd w with
    | none => exact ⟨_, execWrCmd_illegal hd s⟩
    | some c =>
      rw [execWrCmd_legal hd]
      exact h.command_completes c

/-- What is fetched under the invariant completes, unless the turn was refused: the invariant keeps SEL
inside R106. -/
theorem EngineInv.step_completes {s : State} (h : EngineInv s) :
    (∃ t, step s = .next t) ∨ ∃ r, fetch s = .refused r := by
  cases hf : fetch s with
  | instr i s1 =>
    left
    rw [step_of_instr hf]
    obtain ⟨ts, -, -, hd⟩ | ⟨ts, req, w, rfl, rfl⟩ := fetch_instr hf
    · obtain ⟨j, t, hj, hx⟩ := engine_progress (s := s1) h.rndRange h.nxtLegal
      cases hd.symm.trans hj
      exact ⟨t, hx⟩
    · exact (h.withHost ts none).bus_completes req w
  | idle t => exact .inl ⟨t, step_of_idle hf⟩
  | reset t => exact .inl ⟨t, step_of_reset hf⟩
  | fault f =>
    obtain ⟨-, -, hnone⟩ := fetch_fault hf
    obtain ⟨i, -, hd, -⟩ := engine_progress (s := s) h.rndRange h.nxtLegal
    cases hnone.symm.trans hd
  | refused r => exact .inr ⟨r, rfl⟩

theorem step_of_refused {s : State} {r : Refusal} (h : fetch s = .refused r) : step s = .refused r := by
  rw [step, h]

theorem fetchEngine_ne_refused (s : State) (r : Refusal) : fetchEngine s ≠ .refused r := by
  unfold fetchEngine
  split
  · split <;> nofun
  · nofun

/-- Only a platform access can be refused (R77, R82, log 8). -/
theorem fetch_refused {s : State} {r : Refusal} (h : fetch s = .refused r) :
    ∃ x ∈ s.turns, x.atPort = false := by
  cases ht : s.turns with
  | nil =>
    rw [fetch, ht] at h
    exact absurd h (fetchEngine_ne_refused s r)
  | cons x ts =>
    cases x with
    | bus req w => cases (fetch_of_bus ht).symm.trans h
    | access size addr write => exact ⟨_, List.mem_cons_self, rfl⟩
    | engine => exact absurd ((fetch_of_engine ht).symm.trans h) (fetchEngine_ne_refused _ r)
    | reset =>
      rw [fetch, ht] at h
      cases h

/-- Settles O51: a step that does not complete is a refused turn, and a turn at the port is never
refused. -/
theorem noStepFaultsUnderInvariant : Obligations.NoStepFaultsUnderInvariant := by
  unfold Obligations.NoStepFaultsUnderInvariant
  intro s h
  obtain ⟨t, ht⟩ | ⟨r, hr⟩ := h.step_completes
  · exact ⟨fun f => by rw [ht]; nofun, fun _ => ⟨t, ht⟩⟩
  · refine ⟨fun f => by rw [step_of_refused hr]; nofun, fun hport => ?_⟩
    obtain ⟨x, hx, haway⟩ := fetch_refused hr
    exact absurd ((hport x hx).symm.trans haway) (by decide)

/-! ### The lock -/

section
variable {s : State} (he : s.err = true)
include he

/-- While ERR = 1 every command but INIT is without effect (R147, R308). -/
theorem command_of_locked : ∀ c : Command, c ≠ .init → exec c.instr s = .next s
  | .nop, _ => rfl
  | .init, hc => absurd rfl hc
  | .push, _ => (exec_refused (exec_push s)).1 he
  | .final n, _ => (exec_refused (exec_final n s)).1 he

/-- While ERR = 1 a write to CMD that starts no INIT is without effect, legal or not (R302, R308). -/
theorem wrCmd_of_locked {w : Word} (hc : decodeCmd w ≠ some .init) : exec (.wrCmd w) s = .next s := by
  cases hd : decodeCmd w with
  | none => rw [execWrCmd_illegal hd, raiseCmdError_of_err s _ he]
  | some c =>
    rw [execWrCmd_legal hd]
    exact command_of_locked he c fun h => hc (h ▸ hd)

/-- While ERR = 1 a bus operation that starts no INIT leaves the error and LEN (R308, R309). -/
theorem bus_of_locked {req : BitVec 5} {w : Word} {t : State}
    (hc : commandOf (decodeBus req w) ≠ some .init) (hx : exec (decodeBus req w) s = .next t) :
    t.err = s.err ∧ t.errcode = s.errcode ∧ t.len = s.len := by
  obtain ⟨v, rfl⟩ | rfl | ⟨x, rfl⟩ | ⟨v, rfl⟩ | hi := bus_next req w hx
  · exact ⟨rfl, rfl, rfl⟩
  · exact ⟨rfl, rfl, rfl⟩
  · exact ⟨rfl, rfl, rfl⟩
  · exact ⟨rfl, rfl, rfl⟩
  · rw [hi] at hc hx
    cases (wrCmd_of_locked he hc).symm.trans hx
    exact ⟨rfl, rfl, rfl⟩

/-- While ERR = 1 a step that is neither INIT nor a reset leaves the error and LEN (R308 to R310). -/
theorem step_of_locked {t : State} (hs : step s = .next t) (hreset : ∀ u, fetch s ≠ .reset u)
    (hinit : ∀ i u, fetch s = .instr i u → commandOf i ≠ some .init) :
    t.err = s.err ∧ t.errcode = s.errcode ∧ t.len = s.len := by
  obtain ⟨i, s1, hf, hx⟩ | hf | hf := step_next hs
  · obtain ⟨ts, rfl, -, hd⟩ | ⟨ts, req, w, rfl, rfl⟩ := fetch_instr hf
    · obtain ⟨herr, hcode, hlen, -⟩ := engine_frame hd hx
      exact ⟨herr, hcode, hlen⟩
    · exact bus_of_locked (s := { s with turns := ts, rdata := none }) he (hinit _ _ hf) hx
  · obtain ⟨ts, rfl, -⟩ := fetch_idle hf
    exact ⟨rfl, rfl, rfl⟩
  · exact absurd hf (hreset t)

end

/-- Settles O52: the lock keeps the error; INIT and reset write it, and a write to STATUS writes
nothing. -/
theorem errorIsSticky : Obligations.ErrorIsSticky := by
  unfold Obligations.ErrorIsSticky
  refine ⟨fun s t he hs hreset hinit => ?_, fun s =>
    ⟨⟨_, rfl, rfl, rfl⟩, fun ts => ⟨_, rfl, rfl, rfl⟩, fun v => ⟨s, rfl, rfl, rfl⟩⟩⟩
  obtain ⟨herr, hkept⟩ := step_of_locked he hs hreset hinit
  exact ⟨herr.trans he, hkept⟩

/-! ### The interrupt output -/

/-- With interrupts disabled irq is low (R311). -/
theorem irq_of_disabled {s : State} (h : s.ie = false) : s.irq = false := by
  simp [State.irq, h]

/-- The value a read returns is no cause of irq (R78, R311). -/
@[simp] theorem answer_irq (s : State) (v : Word) : (s.answer v).irq = s.irq := rfl

/-- Settles O44: INIT leaves no cause, CTRL bit 0 and reset clear IE, and a read writes the answer only. -/
theorem irqIsLevel : Obligations.IrqIsLevel := by
  unfold Obligations.IrqIsLevel
  refine ⟨fun s => irq_eq_true_iff, fun s t hx => ?_, fun s t v hv hx => ?_,
    fun s ts => ⟨_, rfl, irq_of_disabled rfl⟩, fun idx s t hx => ?_⟩
  · obtain ⟨m, u, hu, -, -, hirq, -⟩ := initOpensSession.2 s
    cases hu.symm.trans hx
    exact hirq
  · cases hx
    exact irq_of_disabled hv
  · obtain ⟨read, hread, -⟩ := decodeRead_answers_visible idx
    rw [decodeBus_read, hread] at hx
    cases hx
    exact answer_irq s (read s)

end Sys2Proof.Machine
end

section
/-! Reset (R340, R341), and what an INIT keeps of the state before it (R344). -/

namespace Sys2Proof.Machine

/-! ### The reset state -/

theorem exec_rdStatus (s : State) : exec .rdStatus s = .next { s with rdata := some s.status } := rfl

/-- No flag, no code and no count stands in STATUS after reset, and PHASE is IDLE (R340). -/
theorem reset_status : State.reset.status = 0x00000000#32 := by decide

/-- Settles O45: every element by the definition of reset, and what each view makes of it. -/
theorem resetState : Obligations.ResetState := by
  unfold Obligations.ResetState
  have hstatus : exec .rdStatus State.reset =
      .next { State.reset with rdata := some 0x00000000#32 } := by
    rw [exec_rdStatus, reset_status]
  have hirq : State.reset.irq = false := irq_of_disabled rfl
  have hdigest (k : BitVec 2) : exec (.rdDigest k) State.reset =
      .next { State.reset with rdata := some 0x00000000#32 } := by
    rw [exec_rdDigest, digestWord_of_not_done (by decide)]
  have hid := idReadReturnsConstant.2 State.reset
  exact ⟨rfl, rfl, rfl, rfl, rfl, rfl, rfl, rfl, rfl, rfl, rfl, Memory.read_zeros, rfl, rfl, rfl, rfl,
    rfl, rfl, hstatus, hirq, hdigest, hid⟩

/-! ### The reset turn -/

/-- A reset turn is taken in every phase, and only the turns after it are kept (R341, log 1). -/
theorem fetch_of_reset {s : State} {ts : List Turn} (ht : s.turns = .reset :: ts) :
    fetch s = .reset { State.reset with turns := ts } := by
  rw [fetch, ht]
  rfl

/-- Settles O46: the fetch does not look at the phase, and the step is what it fetched. -/
theorem resetTurnResets : Obligations.ResetTurnResets := by
  unfold Obligations.ResetTurnResets
  exact fun s ts ht => step_of_reset (fetch_of_reset ht)

/-! ### INIT -/

/-- INIT leaves the reset state with the IV loaded and PHASE in ABSORB; of the state before it only DATA,
IE and the model's own turns and answer stay (R148, R344). -/
theorem exec_init (s : State) :
    exec .init s = .next { State.reset with
      h0 := iv0, h1 := iv1, h2 := iv2, h3 := iv3, phase := .absorb
      data := s.data, ie := s.ie, turns := s.turns, rdata := s.rdata } := rfl

/-- Settles O54: what INIT leaves is a function of the four elements on which the states agree. -/
theorem initForgetsEarlierSession : Obligations.InitForgetsEarlierSession := by
  unfold Obligations.InitForgetsEarlierSession
  intro s s' hdata hie hturns hrdata
  refine ⟨_, exec_init s, ?_, rfl, rfl⟩
  rw [exec_init s', hdata, hie, hturns, hrdata]

end Sys2Proof.Machine
end
